-- ==== Sys2Proof/Word.lean ====
section
/-! DEFINITION. The word types of the block: 64-bit registers, bytes of the buffers, 32-bit hash values. -/

namespace Sys2Proof

/-- A host register: every one is 64 bits wide (10_state.md R21). -/
abbrev Word := BitVec 64

/-- A byte of KEY, IMG or BITMEM (10_state.md R33 to R35). -/
abbrev Byte := BitVec 8

/-- A hash value: 32 bits, arithmetic wraps modulo 2^32 (00_scope.md R7, R9). -/
abbrev HashWord := BitVec 32

end Sys2Proof
end

