-- ==== Sys2Proof/Syntax.lean ====
section
/-! DEFINITION. The syntax of the block: command words (30_encoding.md), host transactions (10_state.md R40 to R45),
the turns in which the agents move (00_scope.md R8). -/

namespace Sys2Proof

/-- One constructor per legal command word, that is per row of spec/opcode_table.json (30_encoding.md R94).
The F field of BIT_SET (the bit value) and of NEW (the compression mode) is part of the constructor. -/
inductive Instr where
  | bsNew
  | bitSet0
  | bitSet1
  | bitGet
  | hash
  | index
  | new0
  | new1
  | insert
  | lookup
  | bsSave
  | bsLoad
  | save
  | load
  deriving DecidableEq, Repr

/-- The twelve operation codes of 30_encoding.md R94, by mnemonic. -/
inductive Opcode where
  | BS_NEW
  | BIT_SET
  | BIT_GET
  | HASH
  | INDEX
  | NEW
  | INSERT
  | LOOKUP
  | BS_SAVE
  | BS_LOAD
  | SAVE
  | LOAD
  deriving DecidableEq, Repr

/-- The three fields of Format C (30_encoding.md R91). -/
structure CommandFields where
  opc : BitVec 8
  f : BitVec 8
  rsv : BitVec 48
  deriving DecidableEq, Repr

/-- Why a word is no command (30_encoding.md R95): the three details of ILLEGAL_COMMAND, by name. -/
inductive IllegalCommand where
  /-- Detail 1: a bit of 63:16 is set. -/
  | reservedBits
  /-- Detail 2: the operation code is not in the table. -/
  | reservedOpcode
  /-- Detail 3: the F field is not legal for the operation code. -/
  | illegalF
  deriving DecidableEq, Repr

/-- The host registers of 10_state.md R21, by name. -/
inductive Reg where
  | ID
  | MAX_BITS_R
  | MAX_KEY_R
  | MAX_IMAGE_R
  | CMD
  | STATUS
  | ARG0
  | KEY_LEN
  | IMG_LEN
  | RESULT
  | ERR_LIMIT
  | CONFIG
  | BIT_COUNT
  | HASH_COUNT
  | MUR
  | FNV
  | H1
  | H2
  deriving DecidableEq, Repr

/-- The two buffers the host reaches (10_state.md R44: "`buf` one of KEY, IMG"; the bit memory is not a buf). -/
inductive Buf where
  | key
  | img
  deriving DecidableEq, Repr

/-- The three byte memories of the block (20_memory.md R60). -/
inductive Space where
  | key
  | img
  | bitmem
  deriving DecidableEq, Repr

/-- The four host transactions (10_state.md R40 to R45). Register numbers and offsets are naturals (20_memory.md R61). -/
inductive Txn where
  | regRead (r : Nat)
  | regWrite (r : Nat) (v : Word)
  | bufRead (buf : Buf) (o : Nat)
  | bufWrite (buf : Buf) (o : Nat) (b : Byte)
  deriving DecidableEq, Repr

/-- The answer of a host transaction (60_exceptions.md R249): OK, OK with the data read, or ERROR. -/
inductive Response where
  | ok
  | okWord (v : Word)
  | okByte (b : Byte)
  | error
  deriving DecidableEq, Repr

/-- One turn of the machine: which agent moves, and with what (00_scope.md R8; 70_reset_and_hazards.md R270).
DESIGN CHOICE, log entry 1. -/
inductive Turn where
  /-- The engine takes its step, if it is enabled (10_state.md R46). -/
  | engine
  /-- The host issues a transaction. -/
  | host (t : Txn)
  /-- The platform applies the reset event. -/
  | reset
  deriving DecidableEq, Repr

/-- The statements of the host assembly (30_encoding.md R98) and its pseudo-instructions (R99). `wait` and `do` carry the number of
polls that find BUSY = 1 before the engine's turn (log entry 12). -/
inductive HostStmt where
  | wr (r : Reg) (v : Word)
  | rd (r : Reg)
  | wb (buf : Buf) (o : Nat) (b : Byte)
  | rb (buf : Buf) (o : Nat)
  | cmd (op : Opcode) (f : Option Nat)
  | wsr (v : Word)
  | key (s : String)
  | keyhex (bs : List Byte)
  | img (bs : List Byte)
  | wait (polls : Nat)
  | doCmd (op : Opcode) (f : Option Nat) (polls : Nat)
  | expect (r : Reg) (v : Word)
  deriving DecidableEq, Repr

end Sys2Proof
end

