-- ==== Sys2Proof/WellFormed.lean ====
section
/-! DEFINITION. When the three fields of a command word are a legal command: the three checks of 30_encoding.md R95, each on its
own, as Bools. Instr has no operand field, so an instruction's own check is that of the fields it is encoded in
(Decode.lean, Instr.wellFormed). -/

namespace Sys2Proof

/-- The operation codes of 30_encoding.md R95. -/
def legalOpcodes : List (BitVec 8) :=
  [0x10, 0x11, 0x12, 0x20, 0x21, 0x30, 0x31, 0x32, 0x40, 0x41, 0x42, 0x43]

/-- Detail 1 of R95: the reserved field is 0. -/
def CommandFields.rsvClear (c : CommandFields) : Bool := c.rsv == 0

/-- Detail 2 of R95: the operation code is one of the twelve. -/
def CommandFields.opcLegal (c : CommandFields) : Bool := legalOpcodes.contains c.opc

/-- Detail 3 of R95: F is 0 or 1 for BIT_SET and NEW, and 0 otherwise. -/
def CommandFields.fLegal (c : CommandFields) : Bool :=
  if c.opc = 0x11 ∨ c.opc = 0x30 then c.f.toNat ≤ 1 else c.f == 0

/-- All three checks. -/
def CommandFields.wellFormed (c : CommandFields) : Bool := c.rsvClear && c.opcLegal && c.fLegal

end Sys2Proof
end

