-- ==== Sys2Proof/Decode.lean ====
section
/-! DEFINITION. Decode (30_encoding.md R95), total on every 64-bit word and rejecting by name, and after it the encoder, which
spells the fourteen words of R94. -/

namespace Sys2Proof

/-- The fields of a command word (30_encoding.md R91). -/
def fieldsOf (w : Word) : CommandFields :=
  { opc := w.extractLsb' 0 8, f := w.extractLsb' 8 8, rsv := w.extractLsb' 16 48 }

/-- The opcode map of 30_encoding.md R94. -/
def opcodeOf (b : BitVec 8) : Option Opcode :=
  if b = 0x10 then some .BS_NEW
  else if b = 0x11 then some .BIT_SET
  else if b = 0x12 then some .BIT_GET
  else if b = 0x20 then some .HASH
  else if b = 0x21 then some .INDEX
  else if b = 0x30 then some .NEW
  else if b = 0x31 then some .INSERT
  else if b = 0x32 then some .LOOKUP
  else if b = 0x40 then some .BS_SAVE
  else if b = 0x41 then some .BS_LOAD
  else if b = 0x42 then some .SAVE
  else if b = 0x43 then some .LOAD
  else none

/-- The instruction of an operation code and an F field, none where F is not legal (30_encoding.md R92, R94, R95). -/
def instrOf (op : Opcode) (f : BitVec 8) : Option Instr :=
  match op with
  | .BIT_SET => if f = 0 then some .bitSet0 else if f = 1 then some .bitSet1 else none
  | .NEW => if f = 0 then some .new0 else if f = 1 then some .new1 else none
  | .BS_NEW => if f = 0 then some .bsNew else none
  | .BIT_GET => if f = 0 then some .bitGet else none
  | .HASH => if f = 0 then some .hash else none
  | .INDEX => if f = 0 then some .index else none
  | .INSERT => if f = 0 then some .insert else none
  | .LOOKUP => if f = 0 then some .lookup else none
  | .BS_SAVE => if f = 0 then some .bsSave else none
  | .BS_LOAD => if f = 0 then some .bsLoad else none
  | .SAVE => if f = 0 then some .save else none
  | .LOAD => if f = 0 then some .load else none

/-- Decode (30_encoding.md R95): reserved bits first, then the operation code, then F. -/
def decode (w : Word) : Except IllegalCommand Instr :=
  if (fieldsOf w).rsv ≠ 0 then .error .reservedBits
  else match opcodeOf (fieldsOf w).opc with
    | none => .error .reservedOpcode
    | some op =>
      match instrOf op (fieldsOf w).f with
      | none => .error .illegalF
      | some i => .ok i

/-- The instruction the decoder reads from a row of spec/opcode_table.json: a command word is one 64-bit word, so bit 0 of the
row is bit 0 of the word and every bit above nbits is 0. -/
def decodeTableWord (nbits w : Nat) : Option Instr :=
  match decode (BitVec.ofNat 64 (w % 2 ^ nbits)) with
  | .ok i => some i
  | .error _ => none

/-- The command word of an instruction, as 30_encoding.md R94 spells it. -/
def encode : Instr → Word
  | .bsNew => 0x0000000000000010
  | .bitSet0 => 0x0000000000000011
  | .bitSet1 => 0x0000000000000111
  | .bitGet => 0x0000000000000012
  | .hash => 0x0000000000000020
  | .index => 0x0000000000000021
  | .new0 => 0x0000000000000030
  | .new1 => 0x0000000000000130
  | .insert => 0x0000000000000031
  | .lookup => 0x0000000000000032
  | .bsSave => 0x0000000000000040
  | .bsLoad => 0x0000000000000041
  | .save => 0x0000000000000042
  | .load => 0x0000000000000043

/-- An instruction is well formed when the fields of its word pass the checks of WellFormed.lean. Every one is. -/
def Instr.wellFormed (i : Instr) : Bool := (fieldsOf (encode i)).wellFormed

end Sys2Proof
end

