-- ==== Sys2Proof/Config.lean ====
section
/-! DEFINITION. What the spec leaves open: the two size parameters of 00_scope.md R6 and the arbitrary bytes of 10_state.md R44.
Each is an opaque constant with no body, so no proof can see its value. -/

namespace Sys2Proof.Config

/-- The open choice behind MAX_BITS (00_scope.md R6, 92_eei_decisions.md D14). Log entry 3. -/
opaque maxBitsChoice : Nat

/-- The open choice behind MAX_KEY_BYTES (00_scope.md R6, 92_eei_decisions.md D15). Log entries 3 and 4. -/
opaque maxKeyChoice : Nat

/-- MAX_BITS of the block that is reset: any value of 1 .. 2^64 - 1 (00_scope.md R6), and no value is singled out. -/
def maxBits : Word := BitVec.ofNat 64 (maxBitsChoice % (2 ^ 64 - 1) + 1)

/-- MAX_KEY_BYTES of the block that is reset: any value of 1 .. 2^64 - 1 (00_scope.md R6; the upper bound is that of the
64-bit register MAX_KEY_R, 10_state.md R28). DEDUCED, log entry 4. -/
def maxKeyBytes : Word := BitVec.ofNat 64 (maxKeyChoice % (2 ^ 64 - 1) + 1)

/-- The byte the n-th host read of a byte without a value answers (10_state.md R44: "an arbitrary byte (a draw)").
A free value: nothing constrains it. Log entry 6. -/
opaque freeByte : Nat → Byte

end Sys2Proof.Config
end

