-- ==== Sys2Proof/Machine/State.lean ====
section
/-! DEFINITION. The state of the block (10_state.md R20): host registers, KEY, IMG, BITMEM, PENDING; the errors of
60_exceptions.md R240; the reasons a step can stop; the state after reset (70_reset_and_hazards.md R270). -/

namespace Sys2Proof.Machine

/-- A byte memory: (offset, byte) cells, offsets strictly rising. An offset that no cell names has NO VALUE
(70_reset_and_hazards.md R272), so no cell can equal what an unlisted offset reads as. -/
abbrev Memory := List Host.Cell

/-- The canonical form: offsets strictly rising. -/
abbrev Memory.wf (m : Memory) : Prop := m.Pairwise fun c d => c.1 < d.1

/-- Why the model stops. Both reasons are safe: the model stops where the hardware goes on. -/
inductive Fault where
  /-- A command reads a byte that has no value: nothing has written it since reset. Raised by HASH, INDEX, INSERT, LOOKUP (KEY)
  and by BS_LOAD, LOAD (IMG), as 70_reset_and_hazards.md R272 says. For BITMEM no run reaches it (R272; log entry 8). Safe. -/
  | unwrittenByte (space : Space) (offset : Nat)
  /-- BUSY = 1 with PENDING = none. Raised by the engine step. No run reaches it (10_state.md R39(g); log entry 8). Safe. -/
  | noPendingWord
  deriving DecidableEq, Repr

/-- Why the model gives an instruction no meaning. Safe. -/
inductive Refusal where
  /-- The instruction of this mnemonic has no meaning yet. Raised by exec alone. -/
  | notModelled (mnemonic : String)
  deriving DecidableEq, Repr

/-- The errors a command can raise: the produced rows of 60_exceptions.md R240. Code 3 (CORRUPT_COMPRESSED_DATA) is
reserved and never produced, so it has no constructor. -/
inductive CmdError where
  /-- BOUNDS_ERROR(0): bit index at or above BIT_COUNT. -/
  | bounds
  /-- FORMAT_ERROR(1): IMG_LEN below 17. -/
  | formatShort
  /-- FORMAT_ERROR(2): a declared length runs past the end of the segment. -/
  | formatOverrun
  /-- FORMAT_ERROR(3): byte_length is not ceil(bit_count/8). -/
  | formatLength
  /-- FORMAT_ERROR(4): bytes follow the bit_count field inside the segment. -/
  | formatTrailing
  /-- FORMAT_ERROR(5): mode byte not 0 or 1. -/
  | formatMode
  /-- FORMAT_ERROR(6): bit_count or hash_count is 0. -/
  | formatZero
  /-- CONFIG_ERROR(1): capacity 0. -/
  | config
  /-- ILLEGAL_COMMAND(1), (2), (3). -/
  | illegal (e : IllegalCommand)
  /-- NOT_CONFIGURED(1): no bit store. -/
  | noStore
  /-- NOT_CONFIGURED(2): no filter. -/
  | noFilter
  /-- OPERAND_ERROR(1): KEY_LEN above MAX_KEY_BYTES. -/
  | keyTooLong
  /-- OPERAND_ERROR(2): IMG_LEN above MAX_IMAGE_BYTES. -/
  | imageTooLong
  /-- CAPACITY_ERROR(1): requested size above MAX_BITS. -/
  | capacityNew
  /-- CAPACITY_ERROR(2): loaded bit_count above MAX_BITS. -/
  | capacityLoad
  deriving DecidableEq, Repr

/-- How a command ends before its writes: with an error (00_scope.md R12), or with a fault of the model. -/
inductive Stop where
  | raise (e : CmdError)
  | fault (f : Fault)
  deriving DecidableEq, Repr

/-- The state of the block. ID and MAX_IMAGE_R are hard-wired and computed by readReg; STATUS and CONFIG are held as their
fields and composed by statusWord and configWord (log entry 9). -/
structure State where
  /-- MAX_BITS_R: the parameter MAX_BITS (10_state.md R28). -/
  maxBitsR : Word
  /-- MAX_KEY_R: the parameter MAX_KEY_BYTES (10_state.md R28). -/
  maxKeyR : Word
  /-- CMD: the last accepted command word (10_state.md R25). -/
  cmd : Word
  /-- STATUS.BUSY (10_state.md R29). -/
  busy : Bool
  /-- STATUS.DONE. -/
  done : Bool
  /-- STATUS.ERR. -/
  err : Bool
  /-- STATUS.BUSY_WRITE. -/
  busyWrite : Bool
  /-- STATUS.ERR_CODE. -/
  errCode : BitVec 4
  /-- STATUS.ERR_DETAIL. -/
  errDetail : BitVec 4
  /-- ARG0 (10_state.md R26). -/
  arg0 : Word
  /-- KEY_LEN (10_state.md R30). -/
  keyLen : Word
  /-- IMG_LEN (10_state.md R30). -/
  imgLen : Word
  /-- RESULT (10_state.md R36). -/
  result : Word
  /-- ERR_LIMIT (10_state.md R36). -/
  errLimit : Word
  /-- CONFIG.BS_VALID (10_state.md R31). -/
  bsValid : Bool
  /-- CONFIG.ENG_VALID. -/
  engValid : Bool
  /-- CONFIG.COMPRESS_MODE, bits 15:8. -/
  compressMode : Byte
  /-- BIT_COUNT, m (10_state.md R32). -/
  bitCount : Word
  /-- HASH_COUNT, k (10_state.md R32). -/
  hashCount : Word
  /-- MUR (10_state.md R37). -/
  mur : Word
  /-- FNV (10_state.md R37). -/
  fnv : Word
  /-- H1 (10_state.md R37). -/
  h1 : Word
  /-- H2 (10_state.md R37). -/
  h2 : Word
  /-- PENDING (10_state.md R38). -/
  pending : Option Word
  /-- KEY (10_state.md R33). -/
  key : Memory
  /-- IMG (10_state.md R34). -/
  img : Memory
  /-- BITMEM (10_state.md R35). -/
  bitmem : Memory
  /-- The MODEL's own: the turns still to come (log entry 1). -/
  schedule : List Turn
  /-- The MODEL's own: the answer of the last host transaction (log entry 7). -/
  response : Option Response
  /-- The MODEL's own: how many free bytes have been drawn (log entry 6). -/
  draws : Nat
  deriving DecidableEq, Repr

/-- A block of given parameters right after reset (70_reset_and_hazards.md R270). The model's own fields start empty
(DESIGN CHOICE, log entries 1, 6, 7). -/
def State.resetWith (maxBits maxKeyBytes : Word) : State :=
  { maxBitsR := maxBits, maxKeyR := maxKeyBytes,
    cmd := 0, busy := false, done := false, err := false, busyWrite := false, errCode := 0, errDetail := 0,
    arg0 := 0, keyLen := 0, imgLen := 0, result := 0, errLimit := 0,
    bsValid := false, engValid := false, compressMode := 0, bitCount := 0, hashCount := 0,
    mur := 0, fnv := 0, h1 := 0, h2 := 0, pending := none,
    key := [], img := [], bitmem := [],
    schedule := [], response := none, draws := 0 }

/-- The machine right after reset, its open parameters at the values of Config, of which nothing is known. -/
def State.reset : State := State.resetWith Config.maxBits Config.maxKeyBytes

end Sys2Proof.Machine
end

