-- ==== Sys2Proof/Machine/Flags.lean ====
section
/-! DEFINITION. Every flag computation of the block: the error and detail codes (60_exceptions.md R240), the words STATUS
(10_state.md R29) and CONFIG (R31) as the host reads them, and the completion of a command (R46). -/

namespace Sys2Proof.Machine

/-- ERR_CODE (60_exceptions.md R240). -/
def errorCode : CmdError → BitVec 4
  | .bounds => 1
  | .formatShort => 2
  | .formatOverrun => 2
  | .formatLength => 2
  | .formatTrailing => 2
  | .formatMode => 2
  | .formatZero => 2
  | .config => 4
  | .illegal _ => 5
  | .noStore => 6
  | .noFilter => 6
  | .keyTooLong => 7
  | .imageTooLong => 7
  | .capacityNew => 8
  | .capacityLoad => 8

/-- ERR_DETAIL (60_exceptions.md R240). -/
def errorDetail : CmdError → BitVec 4
  | .bounds => 0
  | .formatShort => 1
  | .formatOverrun => 2
  | .formatLength => 3
  | .formatTrailing => 4
  | .formatMode => 5
  | .formatZero => 6
  | .config => 1
  | .illegal .reservedBits => 1
  | .illegal .reservedOpcode => 2
  | .illegal .illegalF => 3
  | .noStore => 1
  | .noFilter => 2
  | .keyTooLong => 1
  | .imageTooLong => 2
  | .capacityNew => 1
  | .capacityLoad => 2

/-- A one-bit field at bit position p of a register. -/
def flagAt (b : Bool) (p : Nat) : Word := (BitVec.ofBool b).setWidth 64 <<< p

/-- STATUS as the host reads it (10_state.md R29); reserved bits read 0. -/
def statusWord (s : State) : Word :=
  flagAt s.busy 0 ||| flagAt s.done 1 ||| flagAt s.err 2 ||| flagAt s.busyWrite 3
    ||| (s.errCode.setWidth 64 <<< 8) ||| (s.errDetail.setWidth 64 <<< 16)

/-- CONFIG as the host reads it (10_state.md R31); reserved bits read 0. -/
def configWord (s : State) : Word :=
  flagAt s.bsValid 0 ||| flagAt s.engValid 1 ||| (s.compressMode.setWidth 64 <<< 8)

/-- The completion of a command (10_state.md R46), on the state its writes have been applied to: with error `e`, or without. -/
def finish (e : Option CmdError) (s : State) : State :=
  { s with
    errCode := (e.map errorCode).getD 0
    errDetail := (e.map errorDetail).getD 0
    err := e.isSome
    errLimit := if e = some .bounds then s.bitCount else 0
    pending := none
    busy := false
    done := true }

end Sys2Proof.Machine
end

