-- ==== Sys2Proof/Machine/Ops.lean ====
section
/-! DEFINITION. The named operations every command is built from: reading and writing a byte memory, big-endian and
little-endian integers (00_scope.md R11), the bit-to-byte mapping (20_memory.md R63, R64), raising an error
(60_exceptions.md R243) and completing (10_state.md R46). -/

namespace Sys2Proof.Machine

/-- The byte at an offset, none where nothing has written it (70_reset_and_hazards.md R272). -/
def Memory.read : Memory → Nat → Option Byte
  | [], _ => none
  | (a, b) :: m, x => if a = x then some b else Memory.read m x

/-- Write one byte, keeping the canonical form. -/
def Memory.write : Memory → Nat → Byte → Memory
  | [], x, v => [(x, v)]
  | (a, b) :: m, x, v =>
    if x < a then (x, v) :: (a, b) :: m
    else if x = a then (x, v) :: m
    else (a, b) :: Memory.write m x v

/-- Write a run of bytes from an offset upwards. -/
def Memory.writeBytes : Memory → Nat → List Byte → Memory
  | m, _, [] => m
  | m, a, b :: bs => Memory.writeBytes (Memory.write m a b) (a + 1) bs

/-- A check of a command rule (00_scope.md R12): when it does not hold, the command raises `e`. -/
def require (ok : Prop) [Decidable ok] (e : CmdError) : Except Stop Unit :=
  if ok then .ok () else .error (.raise e)

/-- A command's read of one byte: a byte without a value makes the model fault at that read (70_reset_and_hazards.md R272). -/
def readByte (sp : Space) (m : Memory) (a : Nat) : Except Stop Byte :=
  match m.read a with
  | some b => .ok b
  | none => .error (.fault (.unwrittenByte sp a))

/-- A command's read of `n` bytes from offset `a`, in rising order. -/
def readBytes (sp : Space) (m : Memory) : Nat → Nat → Except Stop (List Byte)
  | _, 0 => .ok []
  | a, n + 1 => do
    let b ← readByte sp m a
    let bs ← readBytes sp m (a + 1) n
    return b :: bs

/-- The natural a big-endian byte sequence denotes (00_scope.md R11, be64). -/
def beNat (bs : List Byte) : Nat := bs.foldl (fun acc b => acc * 256 + b.toNat) 0

/-- The natural a little-endian byte sequence denotes (00_scope.md R11, le32). -/
def leNat (bs : List Byte) : Nat := bs.foldr (fun b acc => b.toNat + 256 * acc) 0

/-- The eight bytes put_be64 writes, in rising order of offset (00_scope.md R11). -/
def be64Bytes (v : Word) : List Byte :=
  [v.extractLsb' 56 8, v.extractLsb' 48 8, v.extractLsb' 40 8, v.extractLsb' 32 8,
   v.extractLsb' 24 8, v.extractLsb' 16 8, v.extractLsb' 8 8, v.extractLsb' 0 8]

/-- be64(X, o) (00_scope.md R11). -/
def readBe64 (sp : Space) (m : Memory) (o : Nat) : Except Stop Nat := do
  let bs ← readBytes sp m o 8
  return beNat bs

/-- nbytes(c) = ceil(c / 8) = (c + 7) div 8 (20_memory.md R62). -/
def nbytes (c : Nat) : Nat := (c + 7) / 8

/-- The value of logical bit `i` within its byte: bit position 7 - (i mod 8) in LSB-0 numbering (20_memory.md R63, R64). -/
def byteBit (b : Byte) (i : Nat) : Bool := b.getLsbD (7 - i % 8)

/-- The byte with logical bit `i` assigned `v` (20_memory.md R64, setbit). -/
def assignByteBit (b : Byte) (i : Nat) (v : Bool) : Byte :=
  (b &&& ~~~((0x80 : Byte) >>> (i % 8))) ||| ((BitVec.ofBool v).setWidth 8 <<< (7 - i % 8))

/-- getbit(i) (20_memory.md R64). -/
def getBit (m : Memory) (i : Nat) : Except Stop Bool := do
  let b ← readByte .bitmem m (i / 8)
  return byteBit b i

/-- setbit(i, v) (20_memory.md R64): every other bit of the bit memory is unchanged. -/
def setBit (m : Memory) (i : Nat) (v : Bool) : Except Stop Memory := do
  let b ← readByte .bitmem m (i / 8)
  return m.write (i / 8) (assignByteBit b i v)

/-- The command completes without error and commits its writes, all at once (10_state.md R46). -/
def commit (s : State) : Host.Outcome State Fault Refusal := .next (finish none s)

/-- A command raises an error: this block's whole "exception entry". It writes STATUS.ERR, ERR_CODE, ERR_DETAIL, ERR_LIMIT,
BUSY and DONE (and clears PENDING) and nothing else: no trap, no saved address, no transfer of control
(60_exceptions.md R243, R244). There is no return from it: the next command runs normally (R245). -/
def raise (e : CmdError) (s : State) : Host.Outcome State Fault Refusal := .next (finish (some e) s)

/-- How a command ends: its rule gives the state with its writes applied, or the error it raises, or the model's fault
(00_scope.md R12; 10_state.md R46). -/
def conclude (s : State) : Except Stop State → Host.Outcome State Fault Refusal
  | .ok s' => commit s'
  | .error (.raise e) => raise e s
  | .error (.fault f) => .fault f

/-- Install a bit store, replacing the old one: BIT_COUNT, the bytes from offset 0, HASH_COUNT, COMPRESS_MODE, BS_VALID and
ENG_VALID (40_bitstore.md R120; 42_engine.md R172; 43_codec.md R205, R225). Bytes above keep stale values (10_state.md R35). -/
def installStore (bits : Word) (bytes : List Byte) (hashes : Word) (mode : Byte) (filter : Bool) (s : State) : State :=
  { s with
    bitCount := bits
    bitmem := s.bitmem.writeBytes 0 bytes
    hashCount := hashes
    compressMode := mode
    bsValid := true
    engValid := filter }

end Sys2Proof.Machine
end

