-- ==== Sys2Proof/Machine/Operands.lean ====
section
/-! DEFINITION. The operands of commands and host transactions: register numbers and register reads (10_state.md R21), the sizes of the
buffers (00_scope.md R6), the implicit operands of commands (30_encoding.md R93). -/

namespace Sys2Proof.Machine

/-- The register of a register number, none where the number is unassigned (10_state.md R21, R23). -/
def regOf : Nat → Option Reg
  | 0x00 => some .ID
  | 0x01 => some .MAX_BITS_R
  | 0x02 => some .MAX_KEY_R
  | 0x03 => some .MAX_IMAGE_R
  | 0x04 => some .CMD
  | 0x05 => some .STATUS
  | 0x06 => some .ARG0
  | 0x07 => some .KEY_LEN
  | 0x08 => some .IMG_LEN
  | 0x09 => some .RESULT
  | 0x0A => some .ERR_LIMIT
  | 0x0B => some .CONFIG
  | 0x0C => some .BIT_COUNT
  | 0x0D => some .HASH_COUNT
  | 0x0E => some .MUR
  | 0x0F => some .FNV
  | 0x10 => some .H1
  | 0x11 => some .H2
  | _ => none

/-- The number of a register (10_state.md R21). -/
def numberOf : Reg → Nat
  | .ID => 0x00
  | .MAX_BITS_R => 0x01
  | .MAX_KEY_R => 0x02
  | .MAX_IMAGE_R => 0x03
  | .CMD => 0x04
  | .STATUS => 0x05
  | .ARG0 => 0x06
  | .KEY_LEN => 0x07
  | .IMG_LEN => 0x08
  | .RESULT => 0x09
  | .ERR_LIMIT => 0x0A
  | .CONFIG => 0x0B
  | .BIT_COUNT => 0x0C
  | .HASH_COUNT => 0x0D
  | .MUR => 0x0E
  | .FNV => 0x0F
  | .H1 => 0x10
  | .H2 => 0x11

/-- MAX_BITS (00_scope.md R6). -/
def maxBits (s : State) : Nat := s.maxBitsR.toNat

/-- MAX_BYTES = ceil(MAX_BITS / 8) (00_scope.md R6). -/
def maxBytes (s : State) : Nat := nbytes (maxBits s)

/-- MAX_KEY_BYTES (00_scope.md R6). -/
def maxKeyBytes (s : State) : Nat := s.maxKeyR.toNat

/-- MAX_IMAGE_BYTES = 25 + MAX_BYTES (00_scope.md R6). -/
def maxImageBytes (s : State) : Nat := maxBytes s + 25

/-- The identification constant (10_state.md R27). -/
def idWord : Word := 0x0000000042464531

/-- The value of a register as a host read gives it (10_state.md R21, R22, R40). -/
def readReg (s : State) : Reg → Word
  | .ID => idWord
  | .MAX_BITS_R => s.maxBitsR
  | .MAX_KEY_R => s.maxKeyR
  | .MAX_IMAGE_R => BitVec.ofNat 64 (maxImageBytes s)
  | .CMD => s.cmd
  | .STATUS => statusWord s
  | .ARG0 => s.arg0
  | .KEY_LEN => s.keyLen
  | .IMG_LEN => s.imgLen
  | .RESULT => s.result
  | .ERR_LIMIT => s.errLimit
  | .CONFIG => configWord s
  | .BIT_COUNT => s.bitCount
  | .HASH_COUNT => s.hashCount
  | .MUR => s.mur
  | .FNV => s.fnv
  | .H1 => s.h1
  | .H2 => s.h2

/-- The size of a buffer in bytes (10_state.md R44). -/
def bufSize (s : State) : Buf → Nat
  | .key => maxKeyBytes s
  | .img => maxImageBytes s

/-- The contents of a buffer. -/
def bufMem (s : State) : Buf → Memory
  | .key => s.key
  | .img => s.img

/-- The key of a hashing command, KEY[0 .. KEY_LEN-1] (41_hash.md R140). A byte of it without a value faults (R149). -/
def readKey (s : State) : Except Stop (List Byte) := readBytes .key s.key 0 s.keyLen.toNat

end Sys2Proof.Machine
end

