-- ==== Sys2Proof/Machine/BitStore.lean ====
section
/-! DEFINITION. The BitStore commands: BS_NEW, BIT_SET, BIT_GET (40_bitstore.md R120 to R125). -/

namespace Sys2Proof.Machine

/-- The checks BIT_SET and BIT_GET share, in their order (40_bitstore.md R122, R124; 20_memory.md R65): the index, if legal. -/
def bitOperand (s : State) : Except Stop Nat := do
  require (s.bsValid = true) .noStore
  require (s.arg0.toNat < s.bitCount.toNat) .bounds
  return s.arg0.toNat

/-- BIT_SET with F = `v` (40_bitstore.md R122): the state with its write applied. -/
def assignBit (v : Bool) (s : State) : Except Stop State := do
  let i ← bitOperand s
  let m ← setBit s.bitmem i v
  return { s with bitmem := m }

/-- BS_NEW (40_bitstore.md R120). -/
def execBsNew (s : State) : Host.Outcome State Fault Refusal :=
  conclude s do
    require (s.arg0.toNat ≤ maxBits s) .capacityNew
    return installStore s.arg0 (List.replicate (nbytes s.arg0.toNat) 0) 0 0 false s

/-- BIT_SET 0 (40_bitstore.md R122, R123). -/
def execBitSet0 (s : State) : Host.Outcome State Fault Refusal := conclude s (assignBit false s)

/-- BIT_SET 1 (40_bitstore.md R122). -/
def execBitSet1 (s : State) : Host.Outcome State Fault Refusal := conclude s (assignBit true s)

/-- BIT_GET (40_bitstore.md R124). -/
def execBitGet (s : State) : Host.Outcome State Fault Refusal :=
  conclude s do
    let i ← bitOperand s
    let b ← getBit s.bitmem i
    return { s with result := (BitVec.ofBool b).setWidth 64 }

end Sys2Proof.Machine
end

