-- ==== Sys2Proof/Machine/Codec.lean ====
section
/-! DEFINITION. The image codec: BS_SAVE, BS_LOAD, SAVE, LOAD (43_codec.md). -/

namespace Sys2Proof.Machine

/-- EncSeg (43_codec.md R202): the bytes of the BitStore image of the current store (R200). -/
def encodeSegment (s : State) : Except Stop (List Byte) := do
  let body ← readBytes .bitmem s.bitmem 0 (nbytes s.bitCount.toNat)
  return be64Bytes (BitVec.ofNat 64 (nbytes s.bitCount.toNat)) ++ body ++ be64Bytes s.bitCount

/-- Put an image at the start of IMG and its length in IMG_LEN; bytes above keep their contents (10_state.md R34). -/
def storeImage (image : List Byte) (s : State) : State :=
  { s with img := s.img.writeBytes 0 image, imgLen := BitVec.ofNat 64 image.length }

/-- ParseSeg(S) (43_codec.md R203), over IMG[0 .. S-1], all arithmetic exact: the pair (nb, bc). -/
def parseSegment (m : Memory) (S : Nat) : Except Stop (Nat × Nat) := do
  require (8 ≤ S) .formatOverrun
  let nb ← readBe64 .img m 0
  require (16 + nb ≤ S) .formatOverrun
  let bc ← readBe64 .img m (8 + nb)
  require (S = 16 + nb) .formatTrailing
  require (nb = nbytes bc) .formatLength
  return (nb, bc)

/-- BS_SAVE (43_codec.md R201). -/
def execBsSave (s : State) : Host.Outcome State Fault Refusal :=
  conclude s do
    require (s.bsValid = true) .noStore
    let seg ← encodeSegment s
    return storeImage seg s

/-- BS_LOAD (43_codec.md R205). -/
def execBsLoad (s : State) : Host.Outcome State Fault Refusal :=
  conclude s do
    require (s.imgLen.toNat ≤ maxImageBytes s) .imageTooLong
    let (nb, bc) ← parseSegment s.img s.imgLen.toNat
    require (bc ≤ maxBits s) .capacityLoad
    let bytes ← readBytes .img s.img 8 nb
    return installStore (BitVec.ofNat 64 bc) bytes 0 0 false s

/-- SAVE (43_codec.md R220, R221): the segment, then hash_count and compress_mode; never compressed (R222). -/
def execSave (s : State) : Host.Outcome State Fault Refusal :=
  conclude s do
    require (s.engValid = true) .noFilter
    let seg ← encodeSegment s
    return storeImage (seg ++ be64Bytes s.hashCount ++ [s.compressMode]) s

/-- LOAD (43_codec.md R225). -/
def execLoad (s : State) : Host.Outcome State Fault Refusal :=
  conclude s do
    let L := s.imgLen.toNat
    require (L ≤ maxImageBytes s) .imageTooLong
    require (17 ≤ L) .formatShort
    let mode ← readByte .img s.img (L - 1)
    require (mode.toNat ≤ 1) .formatMode
    let hc ← readBe64 .img s.img (L - 9)
    let (nb, bc) ← parseSegment s.img (L - 9)
    require (bc ≠ 0 ∧ hc ≠ 0) .formatZero
    require (bc ≤ maxBits s) .capacityLoad
    let bytes ← readBytes .img s.img 8 nb
    return installStore (BitVec.ofNat 64 bc) bytes (BitVec.ofNat 64 hc) mode true s

end Sys2Proof.Machine
end

