-- ==== Sys2Proof/Machine/HashScheme.lean ====
section
/-! DEFINITION. The hash scheme (41_hash.md): murmur3_32, fnv1a_32, double hashing, and the commands HASH and INDEX. -/

namespace Sys2Proof.Machine

/-- The chunk scramble `* 0xcc9e2d51, rotl 15, * 0x1b873593` (41_hash.md R141, R142). -/
def scramble (k : HashWord) : HashWord := (k * 0xcc9e2d51).rotateLeft 15 * 0x1b873593

/-- The body step: XOR the scrambled chunk in, rotl 13, `* 5 + 0xe6546b64` (41_hash.md R141). PRESUMED as to the XOR: the spec
takes it from general knowledge (93_implementation_defined.md I1), log entry 11. -/
def mixChunk (h k : HashWord) : HashWord := (h ^^^ scramble k).rotateLeft 13 * 5 + 0xe6546b64

/-- le32 (00_scope.md R11): up to four bytes, little-endian, zero-padded above. -/
def le32 (bs : List Byte) : HashWord := BitVec.ofNat 32 (leNat bs)

/-- One avalanche step `h ^= h >> n`. -/
def xorShift (h : HashWord) (n : Nat) : HashWord := h ^^^ (h >>> n)

/-- The finalisation of murmur3_32 with the total length `len` (41_hash.md R143). -/
def avalanche (len h : HashWord) : HashWord :=
  xorShift (xorShift (xorShift (h ^^^ len) 16 * 0x85ebca6b) 13 * 0xc2b2ae35) 16

/-- Take a byte sequence four bytes at a time: `body` on every whole chunk, `last` on the 0 to 3 bytes that are left
(41_hash.md R141, R142). -/
def foldChunks {α : Type} (body last : α → List Byte → α) : List Byte → α → α
  | [], h => last h []
  | [a], h => last h [a]
  | [a, b], h => last h [a, b]
  | [a, b, c], h => last h [a, b, c]
  | a :: b :: c :: d :: rest, h => foldChunks body last rest (body h [a, b, c, d])

/-- The body on one chunk (41_hash.md R141). -/
def murmurBody (h : HashWord) (chunk : List Byte) : HashWord := mixChunk h (le32 chunk)

/-- The tail (41_hash.md R142), then the finalisation with the total length `len` (R143). PRESUMED as to the tail's scramble
(93_implementation_defined.md I2), log entry 11. -/
def murmurLast (len h : HashWord) : List Byte → HashWord
  | [] => avalanche len h
  | b :: bs => avalanche len (h ^^^ scramble (le32 (b :: bs)))

/-- murmur3_32(K, L, seed) with L the length of K, truncated to 32 bits as R143 says (41_hash.md R141 to R143). -/
def murmur3 (K : List Byte) (seed : HashWord) : HashWord :=
  foldChunks murmurBody (murmurLast (BitVec.ofNat 32 K.length)) K seed

/-- fnv1a_32(K, L) (41_hash.md R144). -/
def fnv1a (K : List Byte) : HashWord :=
  K.foldl (fun h b => (h ^^^ b.setWidth 32) * 0x01000193) 0x811c9dc5

/-- The seed of the block (00_scope.md R7). -/
def murmurSeed : HashWord := 0xDEADCAFE

/-- h1 = murmur3_32(K, L, 0xDEADCAFE) mod m (41_hash.md R145). -/
def baseHash1 (K : List Byte) (m : Nat) : Nat := (murmur3 K murmurSeed).toNat % m

/-- h2 = fnv1a_32(K, L) mod m (41_hash.md R145). -/
def baseHash2 (K : List Byte) (m : Nat) : Nat := (fnv1a K).toNat % m

/-- index_j = (h1 + j * h2) mod m, exact (41_hash.md R145). -/
def indexOf (K : List Byte) (m j : Nat) : Nat := (baseHash1 K m + j * baseHash2 K m) % m

/-- The candidate indices INSERT and LOOKUP visit: index_j for j < min(k, m), which name the same bits as j < k
(41_hash.md R146). Log entry 14. -/
def candidates (K : List Byte) (m k : Nat) : List Nat := (List.range (min k m)).map (indexOf K m)

/-- MUR, FNV, H1 and H2, written alike by every hashing command (10_state.md R37; 41_hash.md R151). -/
def writeHashes (K : List Byte) (s : State) : State :=
  { s with
    mur := (murmur3 K murmurSeed).setWidth 64
    fnv := (fnv1a K).setWidth 64
    h1 := BitVec.ofNat 64 (baseHash1 K s.bitCount.toNat)
    h2 := BitVec.ofNat 64 (baseHash2 K s.bitCount.toNat) }

/-- The preconditions of every hashing command, in their order, and the key (41_hash.md R149). -/
def hashOperand (s : State) : Except Stop (List Byte) := do
  require (s.engValid = true) .noFilter
  require (s.keyLen.toNat ≤ maxKeyBytes s) .keyTooLong
  readKey s

/-- HASH (41_hash.md R150). -/
def execHash (s : State) : Host.Outcome State Fault Refusal :=
  conclude s do
    let K ← hashOperand s
    return writeHashes K s

/-- INDEX (41_hash.md R152). -/
def execIndex (s : State) : Host.Outcome State Fault Refusal :=
  conclude s do
    let K ← hashOperand s
    return { writeHashes K s with result := BitVec.ofNat 64 (indexOf K s.bitCount.toNat s.arg0.toNat) }

end Sys2Proof.Machine
end

