-- ==== Sys2Proof/Machine/FilterEngine.lean ====
section
/-! DEFINITION. The filter engine: the sizing law, NEW, LOOKUP, INSERT (42_engine.md). -/

namespace Sys2Proof.Machine

/-- floor(C_M * 2^192) for C_M = ln(100) / (ln 2)^2 (42_engine.md R171 gives the first 100 of its bits, C_FX96). -/
def sizingFix : Nat := 0x995c662c50b421a30c43e7c1ee44e0ce4896b9ac59ed53d4d

/-- m(n) = ceil(n * ln(100) / (ln 2)^2), exact, for 1 <= n < 2^64 (42_engine.md R170), evaluated as R171 evaluates it with a
constant long enough for every 64-bit capacity. DEDUCED, log entry 10. -/
def sizedBits (n : Nat) : Nat := sizingFix * n / 2 ^ 192 + 1

/-- k = ceil(ln(100) / ln 2) = 7 (42_engine.md R170). -/
def filterHashes : Word := 7

/-- NEW with F = `mode` (42_engine.md R172): the state with its writes applied. -/
def newFilter (mode : Byte) (s : State) : Except Stop State := do
  require (s.arg0.toNat ≠ 0) .config
  require (sizedBits s.arg0.toNat ≤ maxBits s) .capacityNew
  return installStore (BitVec.ofNat 64 (sizedBits s.arg0.toNat))
    (List.replicate (nbytes (sizedBits s.arg0.toNat)) 0) filterHashes mode true s

/-- NEW 0 (42_engine.md R172). -/
def execNew0 (s : State) : Host.Outcome State Fault Refusal := conclude s (newFilter 0 s)

/-- NEW 1 (42_engine.md R172). -/
def execNew1 (s : State) : Host.Outcome State Fault Refusal := conclude s (newFilter 1 s)

/-- Every bit of the list is 1 (42_engine.md R173). -/
def allSet (m : Memory) : List Nat → Except Stop Bool
  | [] => .ok true
  | i :: is => do
    let b ← getBit m i
    let r ← allSet m is
    return b && r

/-- Set every bit of the list (42_engine.md R176). -/
def setAll (m : Memory) : List Nat → Except Stop Memory
  | [] => .ok m
  | i :: is => do
    let m' ← setBit m i true
    setAll m' is

/-- The bits a key selects in the current filter (41_hash.md R145, R146). -/
def keyBits (s : State) (K : List Byte) : List Nat := candidates K s.bitCount.toNat s.hashCount.toNat

/-- A boolean result: 1 for true, 0 for false (10_state.md R36). -/
def boolWord (b : Bool) : Word := (BitVec.ofBool b).setWidth 64

/-- LOOKUP (42_engine.md R174). -/
def execLookup (s : State) : Host.Outcome State Fault Refusal :=
  conclude s do
    let K ← hashOperand s
    let present ← allSet s.bitmem (keyBits s K)
    return { writeHashes K s with result := boolWord present }

/-- INSERT (42_engine.md R176): the membership test is on the bits before INSERT; a member changes no bit and answers 0. -/
def execInsert (s : State) : Host.Outcome State Fault Refusal :=
  conclude s do
    let K ← hashOperand s
    let present ← allSet s.bitmem (keyBits s K)
    if present then return { writeHashes K s with result := boolWord false }
    else do
      let m ← setAll s.bitmem (keyBits s K)
      return { writeHashes K s with bitmem := m, result := boolWord true }

end Sys2Proof.Machine
end

