-- ==== Sys2Proof/Machine/Dispatch.lean ====
section
/-! DEFINITION. The meaning of every command word (30_encoding.md R94): one arm per constructor of Instr. -/

namespace Sys2Proof.Machine

/-- The engine step on a state whose pending word decodes to `i` (10_state.md R46). -/
def exec (i : Instr) (s : State) : Host.Outcome State Fault Refusal :=
  match i with
  -- 40_bitstore.md
  | .bsNew => Sys2Proof.Machine.execBsNew s
  | .bitSet0 => Sys2Proof.Machine.execBitSet0 s
  | .bitSet1 => Sys2Proof.Machine.execBitSet1 s
  | .bitGet => Sys2Proof.Machine.execBitGet s
  -- 41_hash.md
  | .hash => Sys2Proof.Machine.execHash s
  | .index => Sys2Proof.Machine.execIndex s
  -- 42_engine.md
  | .new0 => Sys2Proof.Machine.execNew0 s
  | .new1 => Sys2Proof.Machine.execNew1 s
  | .insert => Sys2Proof.Machine.execInsert s
  | .lookup => Sys2Proof.Machine.execLookup s
  -- 43_codec.md
  | .bsSave => Sys2Proof.Machine.execBsSave s
  | .bsLoad => Sys2Proof.Machine.execBsLoad s
  | .save => Sys2Proof.Machine.execSave s
  | .load => Sys2Proof.Machine.execLoad s

end Sys2Proof.Machine
end

