-- ==== Sys2Proof/Machine/HostPort.lean ====
section
/-! DEFINITION. The host interface: the four host transactions (10_state.md R40 to R45) and the reset event
(70_reset_and_hazards.md R270, R271). A transaction leaves its answer in the model's field response (log entry 7). -/

namespace Sys2Proof.Machine

/-- Answer a transaction and change nothing else. -/
def answer (r : Response) (s : State) : State := { s with response := some r }

/-- A host write dropped because BUSY = 1: BUSY_WRITE is set, the answer is OK (10_state.md R41, R42, R45). -/
def dropWrite (s : State) : State := { s with busyWrite := true, response := some .ok }

/-- Accept a command word (10_state.md R42). -/
def acceptCommand (w : Word) (s : State) : State :=
  { s with cmd := w, pending := some w, busy := true, done := false }

/-- RegRead(r) (10_state.md R40, R23). A read has no side effect. -/
def regRead (r : Nat) (s : State) : State :=
  match regOf r with
  | none => answer .error s
  | some R => answer (.okWord (readReg s R)) s

/-- RegWrite(STATUS, v) (10_state.md R43): only bit 3 acts, write 1 to clear. -/
def writeStatus (v : Word) (s : State) : State :=
  answer .ok { s with busyWrite := if v.getLsbD 3 then false else s.busyWrite }

/-- RegWrite(r, v) (10_state.md R41, R42, R43; read-only registers R22, unassigned numbers R23). -/
def regWrite (r : Nat) (v : Word) (s : State) : State :=
  match regOf r with
  | none => answer .error s
  | some .CMD => if s.busy then dropWrite s else answer .ok (acceptCommand v s)
  | some .STATUS => writeStatus v s
  | some .ARG0 => if s.busy then dropWrite s else answer .ok { s with arg0 := v }
  | some .KEY_LEN => if s.busy then dropWrite s else answer .ok { s with keyLen := v }
  | some .IMG_LEN => if s.busy then dropWrite s else answer .ok { s with imgLen := v }
  | some .ID => answer .error s
  | some .MAX_BITS_R => answer .error s
  | some .MAX_KEY_R => answer .error s
  | some .MAX_IMAGE_R => answer .error s
  | some .RESULT => answer .error s
  | some .ERR_LIMIT => answer .error s
  | some .CONFIG => answer .error s
  | some .BIT_COUNT => answer .error s
  | some .HASH_COUNT => answer .error s
  | some .MUR => answer .error s
  | some .FNV => answer .error s
  | some .H1 => answer .error s
  | some .H2 => answer .error s

/-- BufRead(buf, o) (10_state.md R44). A byte without a value answers an arbitrary byte, a fresh draw on each read: the free
value Config.freeByte at the counter draws (log entry 6). -/
def bufRead (buf : Buf) (o : Nat) (s : State) : State :=
  if bufSize s buf ≤ o then answer .error s
  else match (bufMem s buf).read o with
    | some b => answer (.okByte b) s
    | none => answer (.okByte (Config.freeByte s.draws)) { s with draws := s.draws + 1 }

/-- Write a byte of a buffer. -/
def storeByte (buf : Buf) (o : Nat) (b : Byte) (s : State) : State :=
  match buf with
  | .key => { s with key := s.key.write o b }
  | .img => { s with img := s.img.write o b }

/-- BufWrite(buf, o, b) (10_state.md R45): the offset is checked before BUSY. -/
def bufWrite (buf : Buf) (o : Nat) (b : Byte) (s : State) : State :=
  if bufSize s buf ≤ o then answer .error s
  else if s.busy then dropWrite s
  else answer .ok (storeByte buf o b s)

/-- One host transaction. -/
def hostTxn (t : Txn) (s : State) : State :=
  match t with
  | .regRead r => regRead r s
  | .regWrite r v => regWrite r v s
  | .bufRead buf o => bufRead buf o s
  | .bufWrite buf o b => bufWrite buf o b s

/-- The reset event (70_reset_and_hazards.md R270, R271): every register, buffer and PENDING as after reset, a pending
command discarded. The parameters are fixed; the model's turns still to come and its draw counter go on (log entry 7). -/
def resetEvent (s : State) : State :=
  { State.resetWith s.maxBitsR s.maxKeyR with schedule := s.schedule, draws := s.draws }

end Sys2Proof.Machine
end

