-- ==== Sys2Proof/Machine/EngineStep.lean ====
section
/-! DEFINITION. The engine step (10_state.md R46): decode the pending word, then run the command rule it selects; and the turn
that placing a command word takes. -/

namespace Sys2Proof.Machine

/-- The engine step, taken while BUSY = 1 (10_state.md R46; 30_encoding.md R95). An illegal word completes with
ILLEGAL_COMMAND. BUSY = 1 with no pending word is a state no run reaches (log entry 8). -/
def engineStep (s : State) : Host.Outcome State Fault Refusal :=
  match s.pending with
  | none => .fault .noPendingWord
  | some w =>
    match decode w with
    | .error e => raise (.illegal e) s
    | .ok i => exec i s

/-- The engine's turn: its step where it is enabled (BUSY = 1), nothing otherwise (10_state.md R46). -/
def engineTurn (s : State) : Host.Outcome State Fault Refusal :=
  if s.busy then engineStep s else .next s

/-- One turn of the machine. -/
def runTurn (t : Turn) (s : State) : Host.Outcome State Fault Refusal :=
  match t with
  | .engine => engineTurn s
  | .host t => .next (hostTxn t s)
  | .reset => .next (resetEvent s)

/-- A command word placed where the next step takes it: accepted as 10_state.md R42 says, with the engine's turn next
(log entry 13). -/
def placeCommand (w : Word) (s : State) : State :=
  { acceptCommand w s with schedule := .engine :: s.schedule }

end Sys2Proof.Machine
end

