-- ==== Sys2Proof/Machine/Step.lean ====
section
/-! DEFINITION. One step of the machine: the next turn of the schedule. With no turn left the host is silent, and the engine
runs if it is enabled (weak fairness, 10_state.md R46; log entry 2); if it is not, the block idles (60_exceptions.md R254). -/

namespace Sys2Proof.Machine

/-- One step. -/
def step (s : State) : Host.Outcome State Fault Refusal :=
  match s.schedule with
  | [] => engineTurn s
  | t :: rest => runTurn t { s with schedule := rest }

/-- The command word `w` of nbits bits, accepted and about to run: this block fetches nothing (10_state.md R24), so the place
a step takes its next instruction from is PENDING with BUSY = 1 (R38, R42, R46). Log entry 13. -/
def State.withFetchWord (s : State) (nbits w : Nat) : State :=
  placeCommand (BitVec.ofNat 64 (w % 2 ^ nbits)) s

end Sys2Proof.Machine
end

