-- ==== Sys2Proof/Machine/HostAsm.lean ====
section
/-! DEFINITION. The host assembler (30_encoding.md R97 to R99): a command word from its mnemonic, and each statement's turns. -/

namespace Sys2Proof.Machine

/-- The operation code of a mnemonic (30_encoding.md R94). -/
def opcodeByte : Opcode → Byte
  | .BS_NEW => 0x10
  | .BIT_SET => 0x11
  | .BIT_GET => 0x12
  | .HASH => 0x20
  | .INDEX => 0x21
  | .NEW => 0x30
  | .INSERT => 0x31
  | .LOOKUP => 0x32
  | .BS_SAVE => 0x40
  | .BS_LOAD => 0x41
  | .SAVE => 0x42
  | .LOAD => 0x43

/-- The command word of a mnemonic and its operand, none where the assembler rejects them: BIT_SET and NEW take 0 or 1, the
others take no operand (30_encoding.md R97). Log entry 12. -/
def assembleCommand (op : Opcode) (f : Option Nat) : Option Word :=
  match op, f with
  | .BIT_SET, some n => if n ≤ 1 then some ((opcodeByte .BIT_SET).setWidth 64 + BitVec.ofNat 64 (256 * n)) else none
  | .NEW, some n => if n ≤ 1 then some ((opcodeByte .NEW).setWidth 64 + BitVec.ofNat 64 (256 * n)) else none
  | .BIT_SET, none => none
  | .NEW, none => none
  | op, none => some ((opcodeByte op).setWidth 64)
  | _, some _ => none

/-- The turns that write a run of bytes into a buffer, byte by byte from an offset. -/
def writeTurns (buf : Buf) : Nat → List Byte → List Turn
  | _, [] => []
  | o, b :: bs => .host (.bufWrite buf o b) :: writeTurns buf (o + 1) bs

/-- RegWrite of a named register, as a turn. -/
def wrTurn (r : Reg) (v : Word) : Turn := .host (.regWrite (numberOf r) v)

/-- RegRead of a named register, as a turn. -/
def rdTurn (r : Reg) : Turn := .host (.regRead (numberOf r))

/-- The key bytes, then KEY_LEN (30_encoding.md R99, key and keyhex). -/
def keyTurns (bs : List Byte) : List Turn :=
  writeTurns .key 0 bs ++ [wrTurn .KEY_LEN (BitVec.ofNat 64 bs.length)]

/-- `wait`: polls of STATUS that find BUSY = 1, the engine's turn, and the poll that finds BUSY = 0 (30_encoding.md R99). -/
def waitTurns (polls : Nat) : List Turn :=
  List.replicate polls (rdTurn .STATUS) ++ [.engine, rdTurn .STATUS]

/-- The ASCII bytes of a string (30_encoding.md R99, key). -/
def asciiBytes (s : String) : List Byte := s.toList.map fun c => BitVec.ofNat 8 c.toNat

/-- The turns of a statement (30_encoding.md R98, R99), none where the assembler rejects it. -/
def expand : HostStmt → Option (List Turn)
  | .wr r v => some [wrTurn r v]
  | .rd r => some [rdTurn r]
  | .wb buf o b => some [.host (.bufWrite buf o b)]
  | .rb buf o => some [.host (.bufRead buf o)]
  | .cmd op f => (assembleCommand op f).map fun w => [wrTurn .CMD w]
  | .wsr v => some [wrTurn .STATUS v]
  | .key s => some (keyTurns (asciiBytes s))
  | .keyhex bs => some (keyTurns bs)
  | .img bs => some (writeTurns .img 0 bs ++ [wrTurn .IMG_LEN (BitVec.ofNat 64 bs.length)])
  | .wait polls => some (waitTurns polls)
  | .doCmd op f polls => (assembleCommand op f).map fun w => wrTurn .CMD w :: waitTurns polls
  | .expect _ _ => some []

/-- The turns of a host program, in order (30_encoding.md R98). -/
def assemble : List HostStmt → Option (List Turn)
  | [] => some []
  | st :: rest => (expand st).bind fun ts => (assemble rest).map fun us => ts ++ us

end Sys2Proof.Machine
end

