-- ==== Sys2Proof/Safety.lean ====
section
/-! DEFINITION. The terms the statements are made in: what a run keeps (10_state.md R39), what the buffers hold, the images of
43_codec.md as byte sequences, and the events that may clear a bit (42_engine.md R175, R178). -/

namespace Sys2Proof.Machine

/-- The value of logical bit `i` of a bit memory, at bit position 7 - (i mod 8) of byte i div 8 in LSB-0 numbering
(20_memory.md R63), said here without the machine's own reading of a bit; a byte without a value counts as 0, and no statement
rests on that: each comes with a premise that the byte is held. -/
def bitAt (m : Memory) (i : Nat) : Bool :=
  match m.read (i / 8) with
  | some b => b.getLsbD (7 - i % 8)
  | none => false

/-- The bytes `bs` stand at offset `a` and above. -/
def Holds (m : Memory) (a : Nat) (bs : List Byte) : Prop := ∀ i, i < bs.length → m.read (a + i) = bs[i]?

/-- The key of the state is `K`: KEY[0 .. KEY_LEN-1], every byte written (10_state.md R33; 41_hash.md R140). -/
def KeyIs (s : State) (K : List Byte) : Prop := K.length = s.keyLen.toNat ∧ Holds s.key 0 K

/-- The image of the state is `I`: IMG[0 .. IMG_LEN-1], every byte written (10_state.md R34). -/
def ImageIs (s : State) (I : List Byte) : Prop := I.length = s.imgLen.toNat ∧ Holds s.img 0 I

/-- The eight bytes at offset `a` of IMG are all written, and `F` is their sequence. -/
def FieldIs (s : State) (a : Nat) (F : List Byte) : Prop := F.length = 8 ∧ Holds s.img a F

/-- If a byte of IMG[a .. a+n-1] has no value, the instruction faults at such a byte (70_reset_and_hazards.md R272). -/
def FaultsAtGap (i : Instr) (s : State) (a n : Nat) : Prop :=
  (∃ o, a ≤ o ∧ o < a + n ∧ s.img.read o = none) →
    ∃ o, a ≤ o ∧ o < a + n ∧ s.img.read o = none ∧ exec i s = .fault (.unwrittenByte .img o)

/-- The bytes of the bit store are `B`: BITMEM[0 .. ceil(BIT_COUNT/8)-1] (10_state.md R35). -/
def StoreIs (s : State) (B : List Byte) : Prop := B.length = nbytes s.bitCount.toNat ∧ Holds s.bitmem 0 B

/-- A hashing command can read its operands: a filter, a key that fits, every byte of it written (41_hash.md R149). -/
def Hashable (s : State) (K : List Byte) : Prop :=
  s.engValid = true ∧ s.keyLen.toNat ≤ maxKeyBytes s ∧ KeyIs s K

/-- The BitStore image of `c` bits in bytes `B` (43_codec.md R200). -/
def segmentImage (c : Word) (B : List Byte) : List Byte :=
  be64Bytes (BitVec.ofNat 64 B.length) ++ B ++ be64Bytes c

/-- The raw filter image (43_codec.md R220). -/
def filterImage (c : Word) (B : List Byte) (k : Word) (mode : Byte) : List Byte :=
  segmentImage c B ++ be64Bytes k ++ [mode]

/-- The invariants of 10_state.md R39, (a) to (h). -/
structure Rules39 (s : State) : Prop where
  filter_has_store : s.engValid = true → s.bsValid = true
  filter_counts : s.engValid = true → 1 ≤ s.bitCount.toNat ∧ 1 ≤ s.hashCount.toNat
  store_fits : s.bsValid = true → s.bitCount.toNat ≤ maxBits s
  no_filter : s.engValid = false → s.hashCount = 0 ∧ s.compressMode = 0
  mode_legal : s.compressMode = 0 ∨ s.compressMode = 1
  no_store : s.bsValid = false → s.bitCount = 0
  pending_busy : s.pending = none ↔ s.busy = false
  bits_held : s.bsValid = true → ∀ b < nbytes s.bitCount.toNat, (s.bitmem.read b).isSome = true

/-- The (ERR_CODE, ERR_DETAIL) pairs that 60_exceptions.md R240 lists as produced. -/
def producedCodes : List (BitVec 4 × BitVec 4) :=
  [(0, 0), (1, 0), (2, 1), (2, 2), (2, 3), (2, 4), (2, 5), (2, 6), (4, 1), (5, 1), (5, 2), (5, 3),
   (6, 1), (6, 2), (7, 1), (7, 2), (8, 1), (8, 2)]

/-- Every cell of a memory lies below a size. -/
def Inside (m : Memory) (size : Nat) : Prop := ∀ c ∈ m, c.1 < size

/-- What else a run keeps: legal parameters (00_scope.md R6); the buffers in canonical form and within their sizes (R33 to R35); PENDING the
word CMD holds (R38); STATUS fields as R29 and R240 say; ERR_LIMIT as R36 says; MUR and FNV zero-extended (R37). -/
structure WellKept (s : State) : Prop where
  params : 1 ≤ maxBits s ∧ 1 ≤ maxKeyBytes s
  key_form : s.key.wf
  img_form : s.img.wf
  bitmem_form : s.bitmem.wf
  key_inside : Inside s.key (maxKeyBytes s)
  img_inside : Inside s.img (maxImageBytes s)
  bitmem_inside : Inside s.bitmem (maxBytes s)
  pending_is_cmd : ∀ w, s.pending = some w → s.cmd = w
  busy_not_done : s.busy = true → s.done = false
  err_iff : s.err = true ↔ s.errCode ≠ 0
  code_produced : (s.errCode, s.errDetail) ∈ producedCodes
  limit_zero : s.errCode ≠ 1 → s.errLimit = 0
  hashes_32 : s.mur.toNat < 2 ^ 32 ∧ s.fnv.toNat < 2 ^ 32

/-- The invariant of the model: what every run from reset keeps. -/
structure Inv (s : State) : Prop where
  rules : Rules39 s
  kept : WellKept s

/-- The instructions that replace the store or can clear a bit: BS_NEW, NEW, BS_LOAD, LOAD and BIT_SET 0
(42_engine.md R175, R178). -/
def mayClear : Instr → Bool
  | .bsNew => true
  | .bitSet0 => true
  | .new0 => true
  | .new1 => true
  | .bsLoad => true
  | .load => true
  | .bitSet1 => false
  | .bitGet => false
  | .hash => false
  | .index => false
  | .insert => false
  | .lookup => false
  | .bsSave => false
  | .save => false

/-- The instruction the next step executes: it is the engine's turn (its own, or the host's schedule is over), BUSY = 1, and the
pending word decodes (10_state.md R46). -/
def executes (s : State) : Option Instr :=
  match s.schedule.head? with
  | some .reset => none
  | some (.host _) => none
  | some .engine | none =>
    if s.busy then
      match s.pending with
      | none => none
      | some w =>
        match decode w with
        | .ok i => some i
        | .error _ => none
    else none

/-- A host program has ended: its last transaction has been answered, and BUSY = 0 (70_reset_and_hazards.md R281). -/
def ProgramEnded (s : State) : Prop := (∀ t, Turn.host t ∉ s.schedule) ∧ s.busy = false

/-- `n` steps, stopping at the first fault or refusal. -/
def runSteps : Nat → State → Host.Outcome State Fault Refusal
  | 0, s => .next s
  | n + 1, s =>
    match step s with
    | .next s' => runSteps n s'
    | .fault f => .fault f
    | .refused r => .refused r

/-- One step that neither resets the block nor replaces the store nor runs BIT_SET 0: an instruction that may clear a bit has
run only if it completed with an error, and so changed no bit (42_engine.md R175; 60_exceptions.md R243). -/
def QuietStep (s t : State) : Prop :=
  step s = .next t ∧ s.schedule.head? ≠ some .reset ∧
    ∀ i, executes s = some i → mayClear i = true → t.err = true

/-- The two errors a hashing command checks for, in their order (41_hash.md R149). -/
def ChecksHashOperands (i : Instr) (s : State) : Prop :=
  (s.engValid = false → exec i s = .next (finish (some .noFilter) s)) ∧
  (s.engValid = true → maxKeyBytes s < s.keyLen.toNat → exec i s = .next (finish (some .keyTooLong) s))

/-- The instructions that hash the key (41_hash.md R149). -/
def isHashing : Instr → Bool
  | .hash => true
  | .index => true
  | .insert => true
  | .lookup => true
  | .bsNew => false
  | .bitSet0 => false
  | .bitSet1 => false
  | .bitGet => false
  | .new0 => false
  | .new1 => false
  | .bsSave => false
  | .bsLoad => false
  | .save => false
  | .load => false

end Sys2Proof.Machine
end

