-- ==== Sys2Proof/Certificates/Slice0/Obligations.lean ====
section
/-! DEFINITION. The statements of the model, one per obligation: what 30_encoding.md, 10_state.md and the command rules say. -/

open Sys2Proof Sys2Proof.Machine

/-! ## Encoding -/

/-- 30_encoding.md R94: the fourteen words, as it spells them, are the only legal command words, and decode and encode agree on
them. -/
def Obligations.DecodeAndEncodeAgreeOnTheFourteenWords : Prop :=
  (∀ (w : Word) (i : Instr), decode w = .ok i ↔ w = encode i) ∧
  [Instr.bsNew, .bitSet0, .bitSet1, .bitGet, .hash, .index, .new0, .new1, .insert, .lookup, .bsSave, .bsLoad, .save,
    .load].map encode =
  [0x0000000000000010, 0x0000000000000011, 0x0000000000000111, 0x0000000000000012, 0x0000000000000020,
    0x0000000000000021, 0x0000000000000030, 0x0000000000000130, 0x0000000000000031, 0x0000000000000032,
    0x0000000000000040, 0x0000000000000041, 0x0000000000000042, 0x0000000000000043]

/-- 30_encoding.md R91, R94, a sanity statement: words put together from OPC, F and RSV, one of each family, decode as the table says. -/
def Obligations.SpelledWordsDecodeAsTheTableSays : Prop :=
  let word := fun (rsv : BitVec 48) (f opc : BitVec 8) => (rsv ++ f ++ opc : Word)
  decode (word 0 0 0x10) = .ok .bsNew ∧ decode (word 0 1 0x11) = .ok .bitSet1 ∧ decode (word 0 0 0x12) = .ok .bitGet ∧
  decode (word 0 0 0x20) = .ok .hash ∧ decode (word 0 1 0x30) = .ok .new1 ∧ decode (word 0 0 0x31) = .ok .insert ∧
  decode (word 0 0 0x43) = .ok .load ∧ decode (word 1 0 0x10) = .error .reservedBits ∧
  decode (word 0 1 0xff) = .error .reservedOpcode ∧ decode (word 0 2 0x11) = .error .illegalF

/-- 30_encoding.md R95: decode first, which of the three details a word that is no command raises, in their order, and the dispatch. -/
def Obligations.DecodeRejectsInOrder : Prop :=
  ∀ w : Word,
    let rsv := w.toNat / 2 ^ 16
    let opc := w.toNat % 2 ^ 8
    let f := w.toNat / 2 ^ 8 % 2 ^ 8
    let opcodes := [0x10, 0x11, 0x12, 0x20, 0x21, 0x30, 0x31, 0x32, 0x40, 0x41, 0x42, 0x43]
    let badF := if opc = 0x11 ∨ opc = 0x30 then 1 < f else f ≠ 0
    (decode w = .error .reservedBits ↔ rsv ≠ 0) ∧
    (decode w = .error .reservedOpcode ↔ rsv = 0 ∧ opc ∉ opcodes) ∧
    (decode w = .error .illegalF ↔ rsv = 0 ∧ opc ∈ opcodes ∧ badF) ∧
    ∀ s : State, s.pending = some w →
      (∀ i, decode w = .ok i → engineStep s = exec i s) ∧
      (∀ e, decode w = .error e → engineStep s = .next (finish (some (.illegal e)) s))

/-- 30_encoding.md R96: every other word completes with ILLEGAL_COMMAND, and nothing but STATUS, ERR_LIMIT and PENDING changes. -/
def Obligations.EveryOtherWordCompletesAsIllegal : Prop :=
  ∀ (s : State) (w : Word), s.pending = some w → (∀ i, w ≠ encode i) →
    ∃ d : BitVec 4, (d = 1 ∨ d = 2 ∨ d = 3) ∧
      engineStep s = .next { s with errCode := 5, errDetail := d, err := true, errLimit := 0,
                                    pending := none, busy := false, done := true }

/-- 30_encoding.md R97 with the reading of log entry 12: the assembler makes exactly the fourteen words of R94, each for its own
mnemonic and operand, takes 0 or 1 for BIT_SET and NEW, and rejects every other operand; that it rejects BIT_SET and NEW without
an operand is the model's choice. -/
def Obligations.AssemblerMakesExactlyTheLegalWords : Prop :=
  (∀ op f w, assembleCommand op f = some w → ∃ i, decode w = .ok i) ∧
  [assembleCommand .BS_NEW none, assembleCommand .BIT_SET (some 0), assembleCommand .BIT_SET (some 1),
    assembleCommand .BIT_GET none, assembleCommand .HASH none, assembleCommand .INDEX none,
    assembleCommand .NEW (some 0), assembleCommand .NEW (some 1), assembleCommand .INSERT none,
    assembleCommand .LOOKUP none, assembleCommand .BS_SAVE none, assembleCommand .BS_LOAD none,
    assembleCommand .SAVE none, assembleCommand .LOAD none] =
  [0x0000000000000010, 0x0000000000000011, 0x0000000000000111, 0x0000000000000012, 0x0000000000000020,
    0x0000000000000021, 0x0000000000000030, 0x0000000000000130, 0x0000000000000031, 0x0000000000000032,
    0x0000000000000040, 0x0000000000000041, 0x0000000000000042, 0x0000000000000043].map some ∧
  (∀ op n, op ≠ .BIT_SET → op ≠ .NEW → assembleCommand op (some n) = none) ∧
  (∀ n, 1 < n → assembleCommand .BIT_SET (some n) = none ∧ assembleCommand .NEW (some n) = none) ∧
  assembleCommand .BIT_SET none = none ∧ assembleCommand .NEW none = none

/-! ## The step -/

/-- The engine's turn runs the instruction the pending word decodes to, on the state with the turn taken off the schedule
(10_state.md R46, 30_encoding.md R95; the schedule is the model's, log entry 1). -/
def Obligations.StepRunsTheDecodedCommand : Prop :=
  ∀ (s : State) (w : Word) (i : Instr), s.busy = true → s.pending = some w → decode w = .ok i →
    (s.schedule = [] → step s = exec i s) ∧
    (∀ rest, s.schedule = .engine :: rest → step s = exec i { s with schedule := rest })

/-- The other turns (model's choice, log entries 1 and 2): a host transaction, the reset event, an engine that is not enabled
(10_state.md R46), a block that idles (60_exceptions.md R254). -/
def Obligations.StepTakesTheOtherTurns : Prop :=
  ∀ (s : State) (rest : List Turn),
    (∀ t, s.schedule = .host t :: rest → step s = .next (hostTxn t { s with schedule := rest })) ∧
    (s.schedule = .reset :: rest → step s = .next (resetEvent { s with schedule := rest })) ∧
    (s.schedule = .engine :: rest → s.busy = false → step s = .next { s with schedule := rest }) ∧
    (s.schedule = [] → s.busy = false → step s = .next s)

/-- The host's placing of a command word is its acceptance (10_state.md R42) followed by the engine's turn (log entry 13). -/
def Obligations.PlacedWordRunsNext : Prop :=
  ∀ (s : State) (i : Instr),
    step (s.withFetchWord 64 (encode i).toNat) =
      exec i { s with cmd := encode i, pending := some (encode i), busy := true, done := false }

/-- 70_reset_and_hazards.md R281: once a host program has ended, every further step but a reset leaves its result as it is (how the
turns run out is the model's choice, log entries 1 and 2). -/
def Obligations.EndedProgramKeepsItsResult : Prop :=
  ∀ s : State, ProgramEnded s → Turn.reset ∉ s.schedule →
    ∃ l, step s = .next { s with schedule := l } ∧ ProgramEnded { s with schedule := l } ∧ Turn.reset ∉ l

/-- No step is refused: every instruction has its meaning. -/
def Obligations.NoStepIsRefused : Prop := ∀ (s : State) (r : Refusal), step s ≠ .refused r

/-- Weak fairness (10_state.md R46, log entry 2): a pending command is executed, or a reset discards it, at the latest when the
schedule is over, unless the run faults on a byte without a value. -/
def Obligations.PendingCommandIsEventuallyExecuted : Prop :=
  ∀ s : State, Inv s → s.busy = true →
    ∃ n ≤ s.schedule.length + 1,
      (∃ t, runSteps n s = .next t ∧ t.busy = false) ∨ (∃ sp o, runSteps n s = .fault (.unwrittenByte sp o))

/-- 70_reset_and_hazards.md R272: a command faults only on a byte of the key or of the image that nothing has written, and never on
a BITMEM byte. -/
def Obligations.CommandsFaultOnlyOnUnwrittenOperandBytes : Prop :=
  ∀ (i : Instr) (s : State) (f : Fault), Rules39 s → exec i s = .fault f →
    (isHashing i = true ∧ ∃ o < s.keyLen.toNat, s.key.read o = none ∧ f = .unwrittenByte .key o) ∨
    ((i = .bsLoad ∨ i = .load) ∧ ∃ o < s.imgLen.toNat, s.img.read o = none ∧ f = .unwrittenByte .img o)

/-! ## Completion and errors -/

/-- 10_state.md R46, 60_exceptions.md R240, R243: what a completion writes, for each error of the table and for none. -/
def Obligations.CompletionWritesStatus : Prop :=
  ∀ s : State,
    finish none s = { s with errCode := 0, errDetail := 0, err := false, errLimit := 0,
                             pending := none, busy := false, done := true } ∧
    ∀ e c d, (e, c, d) ∈
      [(CmdError.bounds, (1 : BitVec 4), (0 : BitVec 4)), (.formatShort, 2, 1), (.formatOverrun, 2, 2),
        (.formatLength, 2, 3), (.formatTrailing, 2, 4), (.formatMode, 2, 5), (.formatZero, 2, 6), (.config, 4, 1),
        (.illegal .reservedBits, 5, 1), (.illegal .reservedOpcode, 5, 2), (.illegal .illegalF, 5, 3),
        (.noStore, 6, 1), (.noFilter, 6, 2), (.keyTooLong, 7, 1), (.imageTooLong, 7, 2),
        (.capacityNew, 8, 1), (.capacityLoad, 8, 2)] →
      raise e s = .next { s with errCode := c, errDetail := d, err := true,
                                 errLimit := if c = 1 then s.bitCount else 0,
                                 pending := none, busy := false, done := true }

/-- 10_state.md R46: every command that completes leaves BUSY = 0, DONE = 1, PENDING = none, ERR iff ERR_CODE is not 0, ERR_LIMIT = BIT_COUNT
on BOUNDS_ERROR and 0 otherwise, and a code and detail of 60_exceptions.md R240. -/
def Obligations.EveryCompletionReportsLegally : Prop :=
  ∀ s t : State, (engineStep s = .next t ∨ ∃ i, exec i s = .next t) →
    t.busy = false ∧ t.done = true ∧ t.pending = none ∧ (t.err = true ↔ t.errCode ≠ 0) ∧
    t.errLimit = (if t.errCode = 1 then s.bitCount else 0) ∧ (t.errCode, t.errDetail) ∈ producedCodes

/-- 60_exceptions.md R243: a command that raises changes nothing but STATUS, ERR_LIMIT and PENDING. -/
def Obligations.FailedCommandChangesNothingElse : Prop :=
  ∀ s t : State, (engineStep s = .next t ∨ ∃ i, exec i s = .next t) → t.err = true →
    t = { s with errCode := t.errCode, errDetail := t.errDetail, err := true,
                 errLimit := if t.errCode = 1 then s.bitCount else 0, pending := none, busy := false, done := true }

/-- 60_exceptions.md R245, R246: a command that raised runs normally when it is issued again, raises the same error, and leaves the
state as the first one left it. -/
def Obligations.FailedCommandFailsAlikeAgain : Prop :=
  ∀ (i : Instr) (s t : State), exec i s = .next t → t.err = true → exec i t = .next t

/-- 10_state.md R26, R33 and section 5: no command writes ARG0, KEY_LEN, KEY, CMD, the parameters or BUSY_WRITE, nor the model's own
fields. -/
def Obligations.CommandsNeverWriteHostOperands : Prop :=
  ∀ (i : Instr) (s t : State), exec i s = .next t →
    t.arg0 = s.arg0 ∧ t.keyLen = s.keyLen ∧ t.key = s.key ∧ t.cmd = s.cmd ∧ t.maxBitsR = s.maxBitsR ∧
    t.maxKeyR = s.maxKeyR ∧ t.busyWrite = s.busyWrite ∧ t.schedule = s.schedule ∧ t.response = s.response ∧
    t.draws = s.draws

/-- 10_state.md R31, R32, R36, R37 and section 5: which instructions can change CONFIG, BIT_COUNT and HASH_COUNT; RESULT; MUR, FNV, H1 and H2;
IMG and IMG_LEN; BITMEM. -/
def Obligations.OnlyTheListedCommandsWriteEachRegister : Prop :=
  ∀ (i : Instr) (s t : State), exec i s = .next t →
    (i ∉ [Instr.bsNew, .new0, .new1, .bsLoad, .load] →
      t.bsValid = s.bsValid ∧ t.engValid = s.engValid ∧ t.compressMode = s.compressMode ∧
      t.bitCount = s.bitCount ∧ t.hashCount = s.hashCount) ∧
    (i ∉ [Instr.bitGet, .index, .insert, .lookup] → t.result = s.result) ∧
    (i ∉ [Instr.hash, .index, .insert, .lookup] → t.mur = s.mur ∧ t.fnv = s.fnv ∧ t.h1 = s.h1 ∧ t.h2 = s.h2) ∧
    (i ∉ [Instr.bsSave, .save] → t.img = s.img ∧ t.imgLen = s.imgLen) ∧
    (i ∉ [Instr.bsNew, .new0, .new1, .bsLoad, .load, .bitSet0, .bitSet1, .insert] → t.bitmem = s.bitmem)

/-! ## Reset and invariants -/

/-- 70_reset_and_hazards.md R270, R271: what reset leaves, and that the reset event discards a pending command. The reset values of
the model's own fields are its own choice (log entries 1, 6, 7) and no part of this statement. -/
def Obligations.ResetLeavesTheStatedValues : Prop :=
  ∀ s t : State, (t = State.reset ∨ t = resetEvent s) →
    readReg t .ID = 0x0000000042464531 ∧ 1 ≤ maxBits State.reset ∧ 1 ≤ maxKeyBytes State.reset ∧
    (t = resetEvent s → t.maxBitsR = s.maxBitsR ∧ t.maxKeyR = s.maxKeyR) ∧
    readReg t .MAX_IMAGE_R = BitVec.ofNat 64 (25 + (t.maxBitsR.toNat + 7) / 8) ∧
    [t.cmd, t.arg0, t.keyLen, t.imgLen, t.result, t.errLimit, t.bitCount, t.hashCount, t.mur, t.fnv, t.h1, t.h2] =
      List.replicate 12 0 ∧
    statusWord t = 0 ∧ configWord t = 0 ∧ t.pending = none ∧
    ∀ a, t.key.read a = none ∧ t.img.read a = none ∧ t.bitmem.read a = none

/-- The state after reset meets the invariant. -/
def Obligations.ResetMeetsTheInvariant : Prop := Inv State.reset

/-- 10_state.md R39, (a) to (h): they hold after reset, and every step of the machine, from any state that keeps them, keeps them. -/
def Obligations.StepKeepsTheInvariantsOfR39 : Prop :=
  Rules39 State.reset ∧ ∀ s t : State, Rules39 s → step s = .next t → Rules39 t

/-- The rest of the invariant is kept by every step too (R6, R29, R33 to R38, R240). -/
def Obligations.StepKeepsBuffersAndStatusLegal : Prop :=
  ∀ s t : State, Inv s → step s = .next t → WellKept t

/-! ## Host transactions -/

/-- 10_state.md R29: STATUS bit by bit. -/
def Obligations.StatusFieldsStandWhereR29Says : Prop :=
  ∀ (s : State) (p : Nat), p < 64 →
    (statusWord s).getLsbD p =
      (if p = 0 then s.busy else if p = 1 then s.done else if p = 2 then s.err else if p = 3 then s.busyWrite
       else if 8 ≤ p ∧ p ≤ 11 then s.errCode.getLsbD (p - 8)
       else if 16 ≤ p ∧ p ≤ 19 then s.errDetail.getLsbD (p - 16) else false)

/-- 10_state.md R31: CONFIG bit by bit. -/
def Obligations.ConfigFieldsStandWhereR31Says : Prop :=
  ∀ (s : State) (p : Nat), p < 64 →
    (configWord s).getLsbD p =
      (if p = 0 then s.bsValid else if p = 1 then s.engValid
       else if 8 ≤ p ∧ p ≤ 15 then s.compressMode.getLsbD (p - 8) else false)

/-- 10_state.md R21, R27, R28, R40: a register read answers the register's value and has no side effect; R23: an unassigned number answers
ERROR, on a write too. -/
def Obligations.RegisterReadsAnswerTheRegisterMap : Prop :=
  ∀ (s : State) (r : Nat),
    (r < 18 → ∃ v, hostTxn (.regRead r) s = { s with response := some (.okWord v) } ∧
      [0x0000000042464531, s.maxBitsR, s.maxKeyR, BitVec.ofNat 64 (25 + (s.maxBitsR.toNat + 7) / 8), s.cmd,
        statusWord s, s.arg0, s.keyLen, s.imgLen, s.result, s.errLimit, configWord s, s.bitCount, s.hashCount,
        s.mur, s.fnv, s.h1, s.h2][r]? = some v) ∧
    (18 ≤ r → hostTxn (.regRead r) s = { s with response := some .error } ∧
      ∀ v, hostTxn (.regWrite r v) s = { s with response := some .error })

/-- 10_state.md R22, R41, R43: writes of ARG0, KEY_LEN, IMG_LEN, of STATUS, and of read-only registers. -/
def Obligations.RegisterWritesFollowTheAccessKinds : Prop :=
  ∀ (s : State) (v : Word),
    (s.busy = false →
      hostTxn (.regWrite 0x06 v) s = { s with arg0 := v, response := some .ok } ∧
      hostTxn (.regWrite 0x07 v) s = { s with keyLen := v, response := some .ok } ∧
      hostTxn (.regWrite 0x08 v) s = { s with imgLen := v, response := some .ok }) ∧
    (s.busy = true → ∀ r ∈ [0x06, 0x07, 0x08],
      hostTxn (.regWrite r v) s = { s with busyWrite := true, response := some .ok }) ∧
    hostTxn (.regWrite 0x05 v) s =
      { s with busyWrite := s.busyWrite && !v.getLsbD 3, response := some .ok } ∧
    ∀ r ∈ [0x00, 0x01, 0x02, 0x03, 0x09, 0x0A, 0x0B, 0x0C, 0x0D, 0x0E, 0x0F, 0x10, 0x11],
      hostTxn (.regWrite r v) s = { s with response := some .error }

/-- 10_state.md R42: a command word is accepted, or dropped while BUSY = 1. -/
def Obligations.CommandWordIsAcceptedOrDropped : Prop :=
  ∀ (s : State) (w : Word),
    (s.busy = false → hostTxn (.regWrite 0x04 w) s =
      { s with cmd := w, pending := some w, busy := true, done := false, response := some .ok }) ∧
    (s.busy = true → hostTxn (.regWrite 0x04 w) s = { s with busyWrite := true, response := some .ok })

/-- 10_state.md R44: a buffer read; a byte without a value answers a free draw, whatever its value and whatever the draw counter. -/
def Obligations.BufferReadsAnswerTheByteOrADraw : Prop :=
  ∀ (s : State) (buf : Buf) (o : Nat),
    let size := match buf with | .key => s.maxKeyR.toNat | .img => 25 + (s.maxBitsR.toNat + 7) / 8
    let held := match buf with | .key => s.key.read o | .img => s.img.read o
    (size ≤ o → hostTxn (.bufRead buf o) s = { s with response := some .error }) ∧
    (o < size → ∀ b, held = some b → hostTxn (.bufRead buf o) s = { s with response := some (.okByte b) }) ∧
    (o < size → held = none →
      hostTxn (.bufRead buf o) s =
        { s with response := some (.okByte (Config.freeByte s.draws)), draws := s.draws + 1 })

/-- 10_state.md R45: a buffer write stores one byte and changes nothing else, or is refused or dropped. -/
def Obligations.BufferWritesStoreOneByte : Prop :=
  ∀ (s : State) (buf : Buf) (o : Nat) (b : Byte),
    let size := match buf with | .key => s.maxKeyR.toNat | .img => 25 + (s.maxBitsR.toNat + 7) / 8
    (size ≤ o → hostTxn (.bufWrite buf o b) s = { s with response := some .error }) ∧
    (o < size → s.busy = true →
      hostTxn (.bufWrite buf o b) s = { s with busyWrite := true, response := some .ok }) ∧
    (o < size → s.busy = false → ∃ m : Memory,
      hostTxn (.bufWrite buf o b) s =
        (match buf with
          | .key => { s with key := m, response := some .ok }
          | .img => { s with img := m, response := some .ok }) ∧
      m.read o = some b ∧ ∀ a, a ≠ o → m.read a = (match buf with | .key => s.key.read a | .img => s.img.read a))

/-- 10_state.md R47: while a command is pending, any number of host transactions change no register, buffer or bit memory byte except
BUSY_WRITE (the answer and the draw counter are the model's own). -/
def Obligations.HostChangesNothingWhileBusy : Prop :=
  ∀ (ts : List Txn) (s : State), s.busy = true →
    ∃ bw r n, ts.foldl (fun u t => hostTxn t u) s = { s with busyWrite := bw, response := r, draws := n }

/-- 70_reset_and_hazards.md R276 (10_state.md R47): a command has the effect it would have had at its acceptance: what the host does
while it is pending reaches nothing but BUSY_WRITE and the model's own fields. -/
def Obligations.CommandRunsOnItsAcceptedOperands : Prop :=
  ∀ (i : Instr) (s t : State) (bw : Bool) (r : Option Response) (n : Nat) (l : List Turn), exec i s = .next t →
    exec i { s with busyWrite := bw, response := r, draws := n, schedule := l } =
      .next { t with busyWrite := bw, response := r, draws := n, schedule := l }

/-- 30_encoding.md R99: `do` issues the command and waits: whatever the number of polls, when its turns are over the command has
completed and the last poll answered BUSY = 0, unless the command faults. -/
def Obligations.DoStatementRunsItsCommand : Prop :=
  ∀ (s : State) (op : Opcode) (f : Option Nat) (polls : Nat) (ts rest : List Turn) (w : Word),
    Inv s → s.busy = false → assembleCommand op f = some w → expand (.doCmd op f polls) = some ts →
    s.schedule = ts ++ rest →
    (∃ t v, runSteps ts.length s = .next t ∧ t.schedule = rest ∧ t.cmd = w ∧ t.busy = false ∧ t.done = true ∧
      t.response = some (.okWord v) ∧ v.getLsbD 0 = false) ∨
    (∃ sp o, runSteps ts.length s = .fault (.unwrittenByte sp o))

/-! ## BitStore -/

/-- 40_bitstore.md R120: BS_NEW. -/
def Obligations.BsNewMakesAZeroFilledStore : Prop :=
  decode 0x0000000000000010 = .ok .bsNew ∧
  ∀ s : State,
    (maxBits s < s.arg0.toNat → exec .bsNew s = .next (finish (some .capacityNew) s)) ∧
    (s.arg0.toNat ≤ maxBits s → ∃ m : Memory,
      exec .bsNew s = .next (finish none { s with bitCount := s.arg0, bitmem := m, bsValid := true, engValid := false,
                                                  hashCount := 0, compressMode := 0 }) ∧
      ∀ a, m.read a = if a < (s.arg0.toNat + 7) / 8 then some 0 else s.bitmem.read a)

/-- 40_bitstore.md R122 with setbit of 20_memory.md R64: BIT_SET assigns one bit, by the mask of R63 and R64 on the byte as it
stood, and leaves every other bit and byte of BITMEM unchanged. -/
def Obligations.BitSetAssignsOneBit : Prop :=
  decode 0x0000000000000011 = .ok .bitSet0 ∧ decode 0x0000000000000111 = .ok .bitSet1 ∧
  ∀ (v : Bool) (s : State),
    let i := if v then Instr.bitSet1 else .bitSet0
    let p := s.arg0.toNat % 8
    (s.bsValid = false → exec i s = .next (finish (some .noStore) s)) ∧
    (s.bsValid = true → s.bitCount.toNat ≤ s.arg0.toNat → exec i s = .next (finish (some .bounds) s)) ∧
    (Rules39 s → s.bsValid = true → s.arg0.toNat < s.bitCount.toNat → ∃ (m : Memory) (b : Byte),
      exec i s = .next (finish none { s with bitmem := m }) ∧
      s.bitmem.read (s.arg0.toNat / 8) = some b ∧
      m.read (s.arg0.toNat / 8) = some (b &&& ~~~((0x80 : Byte) >>> p) ||| (if v then 1 else 0 : Byte) <<< (7 - p)) ∧
      (∀ a, a ≠ s.arg0.toNat / 8 → m.read a = s.bitmem.read a) ∧
      bitAt m s.arg0.toNat = v ∧ ∀ j, j ≠ s.arg0.toNat → bitAt m j = bitAt s.bitmem j)

/-- 40_bitstore.md R124 with getbit of 20_memory.md R64: BIT_GET; RESULT as a number computed from the byte, and the bit that the
other statements speak of (R63). -/
def Obligations.BitGetReadsOneBit : Prop :=
  decode 0x0000000000000012 = .ok .bitGet ∧
  ∀ s : State,
    (s.bsValid = false → exec .bitGet s = .next (finish (some .noStore) s)) ∧
    (s.bsValid = true → s.bitCount.toNat ≤ s.arg0.toNat → exec .bitGet s = .next (finish (some .bounds) s)) ∧
    (Rules39 s → s.bsValid = true → s.arg0.toNat < s.bitCount.toNat → ∃ (b : Byte) (r : Word),
      s.bitmem.read (s.arg0.toNat / 8) = some b ∧
      exec .bitGet s = .next (finish none { s with result := r }) ∧
      r.toNat = b.toNat / 2 ^ (7 - s.arg0.toNat % 8) % 2 ∧
      (r = 1 ↔ bitAt s.bitmem s.arg0.toNat = true))

/-- 20_memory.md R65: every accessor rejects an index at or above BIT_COUNT alike, with limit BIT_COUNT and nothing written, and no
other command raises BOUNDS_ERROR. -/
def Obligations.OnlyBitAccessorsRaiseBounds : Prop :=
  ∀ (i : Instr) (s t : State), exec i s = .next t →
    (t.errCode = 1 ↔ i ∈ [Instr.bitSet0, .bitSet1, .bitGet] ∧ s.bsValid = true ∧ s.bitCount.toNat ≤ s.arg0.toNat) ∧
    (t.errCode = 1 → t = { s with errCode := 1, errDetail := 0, err := true, errLimit := s.bitCount,
                                  pending := none, busy := false, done := true })

/-! ## Hash scheme -/

/-- 41_hash.md R141, R142: the body runs over the 4-byte chunks le32(K, 4c, 4), c below L div 4, and the tail over the L mod 4 bytes
that are left; R143: the length, then the finisher. -/
def Obligations.MurmurRunsChunksThenTail : Prop :=
  ∀ (K : List Byte) (seed : HashWord),
    let chunk := fun c : Nat => BitVec.ofNat 32 (leNat ((K.drop (4 * c)).take 4))
    let scr := fun k : HashWord => (k * 0xcc9e2d51).rotateLeft 15 * 0x1b873593
    let body := (List.range (K.length / 4)).foldl
      (fun h c => (h ^^^ scr (chunk c)).rotateLeft 13 * 5 + 0xe6546b64) seed
    let tailed := if K.length % 4 = 0 then body else body ^^^ scr (chunk (K.length / 4))
    let a := tailed ^^^ BitVec.ofNat 32 K.length
    let b := (a ^^^ a >>> 16) * 0x85ebca6b
    let c := (b ^^^ b >>> 13) * 0xc2b2ae35
    murmur3 K seed = c ^^^ c >>> 16

/-- 41_hash.md R144: FNV-1a byte by byte. -/
def Obligations.FnvFoldsByteByByte : Prop :=
  fnv1a [] = 0x811c9dc5 ∧
  ∀ (K : List Byte) (b : Byte), fnv1a (K ++ [b]) = (fnv1a K ^^^ b.setWidth 32) * 0x01000193

/-- 41_hash.md R143, R144 and 95_test_vectors.md 2.2: the values the spec gives for the empty key and for "test1". -/
def Obligations.HashValuesOfTheSpecsExamples : Prop :=
  murmur3 [] 0 = 0 ∧ murmur3 [] 0xDEADCAFE = 0x556105B7 ∧ fnv1a [] = 0x811C9DC5 ∧
  murmur3 [0x74, 0x65, 0x73, 0x74, 0x31] 0xDEADCAFE = 0x1B96AD3C ∧
  fnv1a [0x74, 0x65, 0x73, 0x74, 0x31] = 0x992330BC

/-- 41_hash.md R145: the base hashes are the raw hashes mod m, index_j is exact, and every index is below m. -/
def Obligations.IndicesAreTheDoubleHash : Prop :=
  ∀ (K : List Byte) (m j : Nat), 1 ≤ m →
    indexOf K m j = ((murmur3 K 0xDEADCAFE).toNat % m + j * ((fnv1a K).toNat % m)) % m ∧ indexOf K m j < m

/-- 41_hash.md R146: the iterative form, the period, and that stopping after min(k, m) indices visits the same set of bits. -/
def Obligations.IndicesStepAndRepeat : Prop :=
  ∀ (K : List Byte) (m : Nat), 1 ≤ m →
    let h2 := (fnv1a K).toNat % m
    let period := m / Nat.gcd h2 m
    indexOf K m 0 = (murmur3 K 0xDEADCAFE).toNat % m ∧
    (∀ j, indexOf K m (j + 1) = (indexOf K m j + h2) % m ∧ indexOf K m j + h2 < 2 * m) ∧
    period ≤ m ∧ (∀ j, indexOf K m (j + period) = indexOf K m j) ∧
    ∀ k x, (∃ j < k, indexOf K m j = x) ↔ ∃ j < min k m, indexOf K m j = x

/-- 41_hash.md R149: the checks of every hashing command, in their order, and the fault on a key byte without a value. -/
def Obligations.HashingCommandsCheckTheirOperands : Prop :=
  ∀ (i : Instr) (s : State), isHashing i = true →
    (s.engValid = false → exec i s = .next (finish (some .noFilter) s)) ∧
    (s.engValid = true → maxKeyBytes s < s.keyLen.toNat → exec i s = .next (finish (some .keyTooLong) s)) ∧
    (s.engValid = true → s.keyLen.toNat ≤ maxKeyBytes s → (∃ o < s.keyLen.toNat, s.key.read o = none) →
      ∃ o < s.keyLen.toNat, s.key.read o = none ∧ exec i s = .fault (.unwrittenByte .key o))

/-- 41_hash.md R150: HASH, on a filter of at least one bit, as 10_state.md R39(b) gives every filter of a run. -/
def Obligations.HashWritesTheBaseHashes : Prop :=
  decode 0x0000000000000020 = .ok .hash ∧
  ∀ s : State, ChecksHashOperands .hash s ∧
    ∀ K, Hashable s K → 1 ≤ s.bitCount.toNat →
      exec .hash s = .next (finish none
        { s with mur := (murmur3 K 0xDEADCAFE).setWidth 64, fnv := (fnv1a K).setWidth 64,
                 h1 := BitVec.ofNat 64 ((murmur3 K 0xDEADCAFE).toNat % s.bitCount.toNat),
                 h2 := BitVec.ofNat 64 ((fnv1a K).toNat % s.bitCount.toNat) })

/-- 41_hash.md R152: INDEX, exact for every 64-bit j. -/
def Obligations.IndexWritesOneCandidate : Prop :=
  decode 0x0000000000000021 = .ok .index ∧
  ∀ s : State, ChecksHashOperands .index s ∧
    ∀ K, Hashable s K → 1 ≤ s.bitCount.toNat → ∃ r : Word,
      exec .index s = .next (finish none
        { s with mur := (murmur3 K 0xDEADCAFE).setWidth 64, fnv := (fnv1a K).setWidth 64,
                 h1 := BitVec.ofNat 64 ((murmur3 K 0xDEADCAFE).toNat % s.bitCount.toNat),
                 h2 := BitVec.ofNat 64 ((fnv1a K).toNat % s.bitCount.toNat), result := r }) ∧
      r.toNat = ((murmur3 K 0xDEADCAFE).toNat % s.bitCount.toNat +
        s.arg0.toNat * ((fnv1a K).toNat % s.bitCount.toNat)) % s.bitCount.toNat

/-! ## Filter engine -/

/-- 42_engine.md R170: the sizing law on the reals, for every 64-bit capacity, and k = 7. -/
def Obligations.SizingIsTheExactRealCeiling : Prop :=
  (∀ n : Nat, 1 ≤ n → n < 2 ^ 64 →
    (sizedBits n : ℤ) = ⌈(n : ℝ) * Real.log 100 / Real.log 2 ^ 2⌉) ∧
  (filterHashes.toNat : ℤ) = ⌈Real.log 100 / Real.log 2⌉

/-- 42_engine.md R171: the spec's 100-bit constant gives the same size for every capacity below 2^32; the values it names. -/
def Obligations.SizingMatchesTheFixedPointConstant : Prop :=
  (∀ n : Nat, 1 ≤ n → n < 2 ^ 32 → sizedBits n = (n * 0x995c662c50b421a30c43e7c1e) / 2 ^ 96 + 1) ∧
  [1, 2, 3, 10, 100, 28785642].map sizedBits = [10, 20, 29, 96, 959, 275912060]

/-- 42_engine.md R172: NEW with either mode; m(n) is sizedBits, which SizingIsTheExactRealCeiling ties to R170. -/
def Obligations.NewMakesAnEmptyFilter : Prop :=
  decode 0x0000000000000030 = .ok .new0 ∧ decode 0x0000000000000130 = .ok .new1 ∧
  ∀ (mode : Bool) (s : State),
    let i := if mode then Instr.new1 else .new0
    (s.arg0 = 0 → exec i s = .next (finish (some .config) s)) ∧
    (s.arg0 ≠ 0 → maxBits s < sizedBits s.arg0.toNat → exec i s = .next (finish (some .capacityNew) s)) ∧
    (s.arg0 ≠ 0 → sizedBits s.arg0.toNat ≤ maxBits s → ∃ (m : Memory) (bits : Word),
      bits.toNat = sizedBits s.arg0.toNat ∧
      exec i s = .next (finish none { s with bitCount := bits, bitmem := m, hashCount := 7,
                                             compressMode := if mode then 1 else 0,
                                             bsValid := true, engValid := true }) ∧
      ∀ a, m.read a = if a < (sizedBits s.arg0.toNat + 7) / 8 then some 0 else s.bitmem.read a)

/-- 42_engine.md R173, R174: LOOKUP; the hash registers are written as HashWritesTheBaseHashes says (R151). -/
def Obligations.LookupTestsEveryCandidateBit : Prop :=
  decode 0x0000000000000032 = .ok .lookup ∧
  ∀ s : State, ChecksHashOperands .lookup s ∧
    ∀ K, Rules39 s → Hashable s K → ∃ r : Word,
      exec .lookup s = .next (finish none
        { s with mur := (murmur3 K 0xDEADCAFE).setWidth 64, fnv := (fnv1a K).setWidth 64,
                 h1 := BitVec.ofNat 64 ((murmur3 K 0xDEADCAFE).toNat % s.bitCount.toNat),
                 h2 := BitVec.ofNat 64 ((fnv1a K).toNat % s.bitCount.toNat), result := r }) ∧
      (r = 0 ∨ r = 1) ∧
      (r = 1 ↔ ∀ j < s.hashCount.toNat, bitAt s.bitmem (indexOf K s.bitCount.toNat j) = true)

/-- 42_engine.md R176: INSERT: a member changes no bit and answers 0; otherwise every candidate bit is set, no other bit and no
byte that holds no candidate bit changes, and it answers 1. -/
def Obligations.InsertSetsEveryCandidateBit : Prop :=
  decode 0x0000000000000031 = .ok .insert ∧
  ∀ s : State, ChecksHashOperands .insert s ∧
    ∀ K, Rules39 s → Hashable s K → ∃ (r : Word) (m : Memory),
      exec .insert s = .next (finish none
        { s with mur := (murmur3 K 0xDEADCAFE).setWidth 64, fnv := (fnv1a K).setWidth 64,
                 h1 := BitVec.ofNat 64 ((murmur3 K 0xDEADCAFE).toNat % s.bitCount.toNat),
                 h2 := BitVec.ofNat 64 ((fnv1a K).toNat % s.bitCount.toNat), bitmem := m, result := r }) ∧
      (((∀ j < s.hashCount.toNat, bitAt s.bitmem (indexOf K s.bitCount.toNat j) = true) ∧ r = 0 ∧ m = s.bitmem) ∨
       ((∃ j < s.hashCount.toNat, bitAt s.bitmem (indexOf K s.bitCount.toNat j) = false) ∧ r = 1 ∧
        (∀ x, bitAt m x = true ↔
          bitAt s.bitmem x = true ∨ ∃ j < s.hashCount.toNat, indexOf K s.bitCount.toNat j = x) ∧
        ∀ a, (∀ j < s.hashCount.toNat, indexOf K s.bitCount.toNat j / 8 ≠ a) → m.read a = s.bitmem.read a))

/-- 42_engine.md R175: no false negatives. After an INSERT has completed, whatever the host and the engine do that neither resets the
block nor replaces the store nor runs BIT_SET 0, LOOKUP of the same key answers 1. -/
def Obligations.NoFalseNegatives : Prop :=
  ∀ (s t u : State) (K : List Byte), Inv s → Hashable s K → exec .insert s = .next t →
    Relation.ReflTransGen QuietStep t u → u.keyLen.toNat ≤ maxKeyBytes u → KeyIs u K →
    ∃ v, exec .lookup u = .next v ∧ v.err = false ∧ v.result = 1

/-- 42_engine.md R179: a second INSERT of the same key changes no bit and answers 0. -/
def Obligations.SecondInsertChangesNoBit : Prop :=
  ∀ (s t : State) (K : List Byte), Rules39 s → Hashable s K → exec .insert s = .next t →
    ∃ u, exec .insert t = .next u ∧ u.bitmem = t.bitmem ∧ u.result = 0 ∧ u.err = false

/-- 42_engine.md R178: LOOKUP, HASH, INDEX, SAVE, BS_SAVE (and BIT_GET) only read; INSERT (and BIT_SET 1) never clears a bit. -/
def Obligations.EngineCommandsNeverClearABit : Prop :=
  (∀ (i : Instr) (s t : State), i ∈ [Instr.lookup, .hash, .index, .save, .bsSave, .bitGet] → exec i s = .next t →
    t.bitmem = s.bitmem) ∧
  ∀ (i : Instr) (s t : State) (x : Nat), i ∈ [Instr.insert, .bitSet1] → exec i s = .next t →
    bitAt s.bitmem x = true → bitAt t.bitmem x = true

/-! ## Image codec -/

/-- 00_scope.md R11, 20_memory.md R68, R69: the bytes of an integer, as numbers: put_be64 puts the most significant byte first and
be64 reads it so, and they invert one another; le32 reads the least significant byte first. -/
def Obligations.IntegersLieInTheirByteOrder : Prop :=
  (∀ v : Word, (be64Bytes v).length = 8 ∧
    (∀ t < 8, ((be64Bytes v)[t]?.map BitVec.toNat) = some (v.toNat / 256 ^ (7 - t) % 256)) ∧
    beNat (be64Bytes v) = v.toNat) ∧
  (∀ F : List Byte, F.length = 8 → be64Bytes (BitVec.ofNat 64 (beNat F)) = F ∧
    beNat F = ((List.range 8).map fun t => (F[t]?.getD 0).toNat * 256 ^ (7 - t)).sum) ∧
  ∀ F : List Byte, F.length ≤ 4 →
    leNat F = ((List.range 4).map fun t => (F[t]?.getD 0).toNat * 256 ^ t).sum ∧ (le32 F).toNat = leNat F

/-- 43_codec.md R200, R201, R202: BS_SAVE; every byte of the image, the two u64 fields big-endian as numbers (00_scope.md R11). -/
def Obligations.BsSaveWritesTheBitStoreImage : Prop :=
  decode 0x0000000000000040 = .ok .bsSave ∧
  ∀ (s : State) (B : List Byte),
    (s.bsValid = false → exec .bsSave s = .next (finish (some .noStore) s)) ∧
    (s.bsValid = true → StoreIs s B → ∃ (m : Memory) (n : Word),
      exec .bsSave s = .next (finish none { s with img := m, imgLen := n }) ∧ n.toNat = 16 + B.length ∧
      (∀ t < 8, (m.read t).map BitVec.toNat = some (B.length / 256 ^ (7 - t) % 256)) ∧
      (∀ b < B.length, m.read (8 + b) = B[b]?) ∧
      (∀ t < 8, (m.read (8 + B.length + t)).map BitVec.toNat = some (s.bitCount.toNat / 256 ^ (7 - t) % 256)) ∧
      ∀ a, m.read a = if a < 16 + B.length then (segmentImage s.bitCount B)[a]? else s.img.read a)

/-- 43_codec.md R220, R221: SAVE; every byte of the image, the three u64 fields big-endian as numbers (00_scope.md R11). -/
def Obligations.SaveWritesTheFilterImage : Prop :=
  decode 0x0000000000000042 = .ok .save ∧
  ∀ (s : State) (B : List Byte),
    (s.engValid = false → exec .save s = .next (finish (some .noFilter) s)) ∧
    (s.engValid = true → StoreIs s B → ∃ (m : Memory) (n : Word),
      exec .save s = .next (finish none { s with img := m, imgLen := n }) ∧ n.toNat = 25 + B.length ∧
      (∀ t < 8, (m.read t).map BitVec.toNat = some (B.length / 256 ^ (7 - t) % 256)) ∧
      (∀ b < B.length, m.read (8 + b) = B[b]?) ∧
      (∀ t < 8, (m.read (8 + B.length + t)).map BitVec.toNat = some (s.bitCount.toNat / 256 ^ (7 - t) % 256)) ∧
      (∀ t < 8, (m.read (16 + B.length + t)).map BitVec.toNat = some (s.hashCount.toNat / 256 ^ (7 - t) % 256)) ∧
      m.read (24 + B.length) = some s.compressMode ∧
      ∀ a, m.read a =
        if a < 25 + B.length then (filterImage s.bitCount B s.hashCount s.compressMode)[a]? else s.img.read a)

/-- 43_codec.md R203, R205, 70_reset_and_hazards.md R272: BS_LOAD, read by read: the fault at a byte without a value among those it
reads next, which error it raises, in order, and the store it installs. That an error of an earlier check is raised although a byte
not yet read has no value is log entry 5. -/
def Obligations.BsLoadInstallsOrRejects : Prop :=
  decode 0x0000000000000041 = .ok .bsLoad ∧
  ∀ s : State,
    let L := s.imgLen.toNat
    (maxImageBytes s < L → exec .bsLoad s = .next (finish (some .imageTooLong) s)) ∧
    (L ≤ maxImageBytes s → L < 8 → exec .bsLoad s = .next (finish (some .formatOverrun) s)) ∧
    (L ≤ maxImageBytes s → 8 ≤ L → FaultsAtGap .bsLoad s 0 8 ∧
      ∀ N, FieldIs s 0 N →
        let nb := beNat N
        (L < 16 + nb → exec .bsLoad s = .next (finish (some .formatOverrun) s)) ∧
        (16 + nb ≤ L → FaultsAtGap .bsLoad s (8 + nb) 8 ∧
          ∀ C, FieldIs s (8 + nb) C →
            let bc := beNat C
            (16 + nb < L → exec .bsLoad s = .next (finish (some .formatTrailing) s)) ∧
            (L = 16 + nb → nb ≠ (bc + 7) / 8 → exec .bsLoad s = .next (finish (some .formatLength) s)) ∧
            (L = 16 + nb → nb = (bc + 7) / 8 → maxBits s < bc →
              exec .bsLoad s = .next (finish (some .capacityLoad) s)) ∧
            (L = 16 + nb → nb = (bc + 7) / 8 → bc ≤ maxBits s → FaultsAtGap .bsLoad s 8 nb ∧
              ∀ B : List Byte, B.length = nb → Holds s.img 8 B → ∃ m : Memory,
                exec .bsLoad s = .next (finish none
                  { s with bitCount := BitVec.ofNat 64 bc, bitmem := m, bsValid := true,
                           engValid := false, hashCount := 0, compressMode := 0 }) ∧
                ∀ a, m.read a = if a < nb then B[a]? else s.bitmem.read a)))

/-- 43_codec.md R203, R223 to R225, 70_reset_and_hazards.md R272: LOAD, read by read: the fault at a byte without a value among those
it reads next, which error it raises, in order, and the filter it installs. That an error of an earlier check is raised although a
byte not yet read has no value is log entry 5. -/
def Obligations.LoadInstallsOrRejects : Prop :=
  decode 0x0000000000000043 = .ok .load ∧
  ∀ s : State,
    let L := s.imgLen.toNat
    (maxImageBytes s < L → exec .load s = .next (finish (some .imageTooLong) s)) ∧
    (L ≤ maxImageBytes s → L < 17 → exec .load s = .next (finish (some .formatShort) s)) ∧
    (L ≤ maxImageBytes s → 17 ≤ L → FaultsAtGap .load s (L - 1) 1 ∧
      ∀ mode, s.img.read (L - 1) = some mode →
        (1 < mode.toNat → exec .load s = .next (finish (some .formatMode) s)) ∧
        (mode.toNat ≤ 1 → FaultsAtGap .load s (L - 9) 8 ∧
          ∀ H, FieldIs s (L - 9) H → FaultsAtGap .load s 0 8 ∧
            ∀ N, FieldIs s 0 N →
              let hc := beNat H
              let nb := beNat N
              (L < 25 + nb → exec .load s = .next (finish (some .formatOverrun) s)) ∧
              (25 + nb ≤ L → FaultsAtGap .load s (8 + nb) 8 ∧
                ∀ C, FieldIs s (8 + nb) C →
                  let bc := beNat C
                  (25 + nb < L → exec .load s = .next (finish (some .formatTrailing) s)) ∧
                  (L = 25 + nb → nb ≠ (bc + 7) / 8 → exec .load s = .next (finish (some .formatLength) s)) ∧
                  (L = 25 + nb → nb = (bc + 7) / 8 → (bc = 0 ∨ hc = 0) →
                    exec .load s = .next (finish (some .formatZero) s)) ∧
                  (L = 25 + nb → nb = (bc + 7) / 8 → bc ≠ 0 → hc ≠ 0 → maxBits s < bc →
                    exec .load s = .next (finish (some .capacityLoad) s)) ∧
                  (L = 25 + nb → nb = (bc + 7) / 8 → bc ≠ 0 → hc ≠ 0 → bc ≤ maxBits s → FaultsAtGap .load s 8 nb ∧
                    ∀ B : List Byte, B.length = nb → Holds s.img 8 B → ∃ m : Memory,
                      exec .load s = .next (finish none
                        { s with bitCount := BitVec.ofNat 64 bc, bitmem := m, hashCount := BitVec.ofNat 64 hc,
                                 compressMode := mode, bsValid := true, engValid := true }) ∧
                      ∀ a, m.read a = if a < nb then B[a]? else s.bitmem.read a))))

/-- 43_codec.md R205, R225, R227: a load that completes without error consumed a whole image of the layout of R200 or R220, and the
store it leaves is the one the image describes. -/
def Obligations.LoadsAcceptOnlyWholeImages : Prop :=
  ∀ s t : State,
    (exec .bsLoad s = .next t → t.err = false → ∃ B : List Byte,
      ImageIs s (segmentImage t.bitCount B) ∧ StoreIs t B ∧ t.bitCount.toNat ≤ maxBits s) ∧
    (exec .load s = .next t → t.err = false → ∃ B : List Byte,
      ImageIs s (filterImage t.bitCount B t.hashCount t.compressMode) ∧ StoreIs t B ∧
      t.bitCount.toNat ≤ maxBits s ∧ 1 ≤ t.bitCount.toNat ∧ 1 ≤ t.hashCount.toNat ∧
      (t.compressMode = 0 ∨ t.compressMode = 1))

/-- 43_codec.md R206: the bit round trip. -/
def Obligations.BitStoreRoundTrip : Prop :=
  ∀ s : State, Inv s → s.bsValid = true →
    ∃ t u, exec .bsSave s = .next t ∧ t.err = false ∧ exec .bsLoad t = .next u ∧ u.err = false ∧
      u.bitCount = s.bitCount ∧ u.bsValid = true ∧
      ∀ b < nbytes s.bitCount.toNat, u.bitmem.read b = s.bitmem.read b

/-- 43_codec.md R226: the filter round trip, and every later LOOKUP, of whatever key stands in KEY then, answers as it would have
answered before. -/
def Obligations.FilterRoundTrip : Prop :=
  ∀ s : State, Inv s → s.engValid = true →
    ∃ t u, exec .save s = .next t ∧ t.err = false ∧ exec .load t = .next u ∧ u.err = false ∧
      u.bitCount = s.bitCount ∧ u.hashCount = s.hashCount ∧ u.compressMode = s.compressMode ∧ u.engValid = true ∧
      (∀ b < nbytes s.bitCount.toNat, u.bitmem.read b = s.bitmem.read b) ∧
      ∀ (kb : Memory) (len : Word) (K : List Byte), Hashable { s with key := kb, keyLen := len } K →
        ∃ v v' : State, exec .lookup { s with key := kb, keyLen := len } = .next v ∧ v.err = false ∧
          exec .lookup { u with key := kb, keyLen := len } = .next v' ∧ v'.err = false ∧ v'.result = v.result
end

