-- ==== Sys2Proof/Laws/State.lean ====
section
/-! SUPPORT. One lemma per field of State per named update: what each update writes, and that it leaves the rest alone. -/

namespace Sys2Proof.Machine

/-! ### finish -/

@[simp] theorem finish_maxBitsR (e : Option CmdError) (s : State) :
    (finish e s).maxBitsR = s.maxBitsR := rfl
@[simp] theorem finish_maxKeyR (e : Option CmdError) (s : State) :
    (finish e s).maxKeyR = s.maxKeyR := rfl
@[simp] theorem finish_cmd (e : Option CmdError) (s : State) :
    (finish e s).cmd = s.cmd := rfl
@[simp] theorem finish_busy (e : Option CmdError) (s : State) :
    (finish e s).busy = false := rfl
@[simp] theorem finish_done (e : Option CmdError) (s : State) :
    (finish e s).done = true := rfl
@[simp] theorem finish_err (e : Option CmdError) (s : State) :
    (finish e s).err = e.isSome := rfl
@[simp] theorem finish_busyWrite (e : Option CmdError) (s : State) :
    (finish e s).busyWrite = s.busyWrite := rfl
@[simp] theorem finish_errCode (e : Option CmdError) (s : State) :
    (finish e s).errCode = (e.map errorCode).getD 0 := rfl
@[simp] theorem finish_errDetail (e : Option CmdError) (s : State) :
    (finish e s).errDetail = (e.map errorDetail).getD 0 := rfl
@[simp] theorem finish_arg0 (e : Option CmdError) (s : State) :
    (finish e s).arg0 = s.arg0 := rfl
@[simp] theorem finish_keyLen (e : Option CmdError) (s : State) :
    (finish e s).keyLen = s.keyLen := rfl
@[simp] theorem finish_imgLen (e : Option CmdError) (s : State) :
    (finish e s).imgLen = s.imgLen := rfl
@[simp] theorem finish_result (e : Option CmdError) (s : State) :
    (finish e s).result = s.result := rfl
@[simp] theorem finish_errLimit (e : Option CmdError) (s : State) :
    (finish e s).errLimit = if e = some .bounds then s.bitCount else 0 := rfl
@[simp] theorem finish_bsValid (e : Option CmdError) (s : State) :
    (finish e s).bsValid = s.bsValid := rfl
@[simp] theorem finish_engValid (e : Option CmdError) (s : State) :
    (finish e s).engValid = s.engValid := rfl
@[simp] theorem finish_compressMode (e : Option CmdError) (s : State) :
    (finish e s).compressMode = s.compressMode := rfl
@[simp] theorem finish_bitCount (e : Option CmdError) (s : State) :
    (finish e s).bitCount = s.bitCount := rfl
@[simp] theorem finish_hashCount (e : Option CmdError) (s : State) :
    (finish e s).hashCount = s.hashCount := rfl
@[simp] theorem finish_mur (e : Option CmdError) (s : State) :
    (finish e s).mur = s.mur := rfl
@[simp] theorem finish_fnv (e : Option CmdError) (s : State) :
    (finish e s).fnv = s.fnv := rfl
@[simp] theorem finish_h1 (e : Option CmdError) (s : State) :
    (finish e s).h1 = s.h1 := rfl
@[simp] theorem finish_h2 (e : Option CmdError) (s : State) :
    (finish e s).h2 = s.h2 := rfl
@[simp] theorem finish_pending (e : Option CmdError) (s : State) :
    (finish e s).pending = none := rfl
@[simp] theorem finish_key (e : Option CmdError) (s : State) :
    (finish e s).key = s.key := rfl
@[simp] theorem finish_img (e : Option CmdError) (s : State) :
    (finish e s).img = s.img := rfl
@[simp] theorem finish_bitmem (e : Option CmdError) (s : State) :
    (finish e s).bitmem = s.bitmem := rfl
@[simp] theorem finish_schedule (e : Option CmdError) (s : State) :
    (finish e s).schedule = s.schedule := rfl
@[simp] theorem finish_response (e : Option CmdError) (s : State) :
    (finish e s).response = s.response := rfl
@[simp] theorem finish_draws (e : Option CmdError) (s : State) :
    (finish e s).draws = s.draws := rfl

/-! ### installStore -/

@[simp] theorem installStore_maxBitsR (c : Word) (B : List Byte) (k : Word) (m : Byte) (g : Bool) (s : State) :
    (installStore c B k m g s).maxBitsR = s.maxBitsR := rfl
@[simp] theorem installStore_maxKeyR (c : Word) (B : List Byte) (k : Word) (m : Byte) (g : Bool) (s : State) :
    (installStore c B k m g s).maxKeyR = s.maxKeyR := rfl
@[simp] theorem installStore_cmd (c : Word) (B : List Byte) (k : Word) (m : Byte) (g : Bool) (s : State) :
    (installStore c B k m g s).cmd = s.cmd := rfl
@[simp] theorem installStore_busy (c : Word) (B : List Byte) (k : Word) (m : Byte) (g : Bool) (s : State) :
    (installStore c B k m g s).busy = s.busy := rfl
@[simp] theorem installStore_done (c : Word) (B : List Byte) (k : Word) (m : Byte) (g : Bool) (s : State) :
    (installStore c B k m g s).done = s.done := rfl
@[simp] theorem installStore_err (c : Word) (B : List Byte) (k : Word) (m : Byte) (g : Bool) (s : State) :
    (installStore c B k m g s).err = s.err := rfl
@[simp] theorem installStore_busyWrite (c : Word) (B : List Byte) (k : Word) (m : Byte) (g : Bool) (s : State) :
    (installStore c B k m g s).busyWrite = s.busyWrite := rfl
@[simp] theorem installStore_errCode (c : Word) (B : List Byte) (k : Word) (m : Byte) (g : Bool) (s : State) :
    (installStore c B k m g s).errCode = s.errCode := rfl
@[simp] theorem installStore_errDetail (c : Word) (B : List Byte) (k : Word) (m : Byte) (g : Bool) (s : State) :
    (installStore c B k m g s).errDetail = s.errDetail := rfl
@[simp] theorem installStore_arg0 (c : Word) (B : List Byte) (k : Word) (m : Byte) (g : Bool) (s : State) :
    (installStore c B k m g s).arg0 = s.arg0 := rfl
@[simp] theorem installStore_keyLen (c : Word) (B : List Byte) (k : Word) (m : Byte) (g : Bool) (s : State) :
    (installStore c B k m g s).keyLen = s.keyLen := rfl
@[simp] theorem installStore_imgLen (c : Word) (B : List Byte) (k : Word) (m : Byte) (g : Bool) (s : State) :
    (installStore c B k m g s).imgLen = s.imgLen := rfl
@[simp] theorem installStore_result (c : Word) (B : List Byte) (k : Word) (m : Byte) (g : Bool) (s : State) :
    (installStore c B k m g s).result = s.result := rfl
@[simp] theorem installStore_errLimit (c : Word) (B : List Byte) (k : Word) (m : Byte) (g : Bool) (s : State) :
    (installStore c B k m g s).errLimit = s.errLimit := rfl
@[simp] theorem installStore_bsValid (c : Word) (B : List Byte) (k : Word) (m : Byte) (g : Bool) (s : State) :
    (installStore c B k m g s).bsValid = true := rfl
@[simp] theorem installStore_engValid (c : Word) (B : List Byte) (k : Word) (m : Byte) (g : Bool) (s : State) :
    (installStore c B k m g s).engValid = g := rfl
@[simp] theorem installStore_compressMode (c : Word) (B : List Byte) (k : Word) (m : Byte) (g : Bool) (s : State) :
    (installStore c B k m g s).compressMode = m := rfl
@[simp] theorem installStore_bitCount (c : Word) (B : List Byte) (k : Word) (m : Byte) (g : Bool) (s : State) :
    (installStore c B k m g s).bitCount = c := rfl
@[simp] theorem installStore_hashCount (c : Word) (B : List Byte) (k : Word) (m : Byte) (g : Bool) (s : State) :
    (installStore c B k m g s).hashCount = k := rfl
@[simp] theorem installStore_mur (c : Word) (B : List Byte) (k : Word) (m : Byte) (g : Bool) (s : State) :
    (installStore c B k m g s).mur = s.mur := rfl
@[simp] theorem installStore_fnv (c : Word) (B : List Byte) (k : Word) (m : Byte) (g : Bool) (s : State) :
    (installStore c B k m g s).fnv = s.fnv := rfl
@[simp] theorem installStore_h1 (c : Word) (B : List Byte) (k : Word) (m : Byte) (g : Bool) (s : State) :
    (installStore c B k m g s).h1 = s.h1 := rfl
@[simp] theorem installStore_h2 (c : Word) (B : List Byte) (k : Word) (m : Byte) (g : Bool) (s : State) :
    (installStore c B k m g s).h2 = s.h2 := rfl
@[simp] theorem installStore_pending (c : Word) (B : List Byte) (k : Word) (m : Byte) (g : Bool) (s : State) :
    (installStore c B k m g s).pending = s.pending := rfl
@[simp] theorem installStore_key (c : Word) (B : List Byte) (k : Word) (m : Byte) (g : Bool) (s : State) :
    (installStore c B k m g s).key = s.key := rfl
@[simp] theorem installStore_img (c : Word) (B : List Byte) (k : Word) (m : Byte) (g : Bool) (s : State) :
    (installStore c B k m g s).img = s.img := rfl
@[simp] theorem installStore_bitmem (c : Word) (B : List Byte) (k : Word) (m : Byte) (g : Bool) (s : State) :
    (installStore c B k m g s).bitmem = s.bitmem.writeBytes 0 B := rfl
@[simp] theorem installStore_schedule (c : Word) (B : List Byte) (k : Word) (m : Byte) (g : Bool) (s : State) :
    (installStore c B k m g s).schedule = s.schedule := rfl
@[simp] theorem installStore_response (c : Word) (B : List Byte) (k : Word) (m : Byte) (g : Bool) (s : State) :
    (installStore c B k m g s).response = s.response := rfl
@[simp] theorem installStore_draws (c : Word) (B : List Byte) (k : Word) (m : Byte) (g : Bool) (s : State) :
    (installStore c B k m g s).draws = s.draws := rfl

/-! ### writeHashes -/

@[simp] theorem writeHashes_maxBitsR (K : List Byte) (s : State) :
    (writeHashes K s).maxBitsR = s.maxBitsR := rfl
@[simp] theorem writeHashes_maxKeyR (K : List Byte) (s : State) :
    (writeHashes K s).maxKeyR = s.maxKeyR := rfl
@[simp] theorem writeHashes_cmd (K : List Byte) (s : State) :
    (writeHashes K s).cmd = s.cmd := rfl
@[simp] theorem writeHashes_busy (K : List Byte) (s : State) :
    (writeHashes K s).busy = s.busy := rfl
@[simp] theorem writeHashes_done (K : List Byte) (s : State) :
    (writeHashes K s).done = s.done := rfl
@[simp] theorem writeHashes_err (K : List Byte) (s : State) :
    (writeHashes K s).err = s.err := rfl
@[simp] theorem writeHashes_busyWrite (K : List Byte) (s : State) :
    (writeHashes K s).busyWrite = s.busyWrite := rfl
@[simp] theorem writeHashes_errCode (K : List Byte) (s : State) :
    (writeHashes K s).errCode = s.errCode := rfl
@[simp] theorem writeHashes_errDetail (K : List Byte) (s : State) :
    (writeHashes K s).errDetail = s.errDetail := rfl
@[simp] theorem writeHashes_arg0 (K : List Byte) (s : State) :
    (writeHashes K s).arg0 = s.arg0 := rfl
@[simp] theorem writeHashes_keyLen (K : List Byte) (s : State) :
    (writeHashes K s).keyLen = s.keyLen := rfl
@[simp] theorem writeHashes_imgLen (K : List Byte) (s : State) :
    (writeHashes K s).imgLen = s.imgLen := rfl
@[simp] theorem writeHashes_result (K : List Byte) (s : State) :
    (writeHashes K s).result = s.result := rfl
@[simp] theorem writeHashes_errLimit (K : List Byte) (s : State) :
    (writeHashes K s).errLimit = s.errLimit := rfl
@[simp] theorem writeHashes_bsValid (K : List Byte) (s : State) :
    (writeHashes K s).bsValid = s.bsValid := rfl
@[simp] theorem writeHashes_engValid (K : List Byte) (s : State) :
    (writeHashes K s).engValid = s.engValid := rfl
@[simp] theorem writeHashes_compressMode (K : List Byte) (s : State) :
    (writeHashes K s).compressMode = s.compressMode := rfl
@[simp] theorem writeHashes_bitCount (K : List Byte) (s : State) :
    (writeHashes K s).bitCount = s.bitCount := rfl
@[simp] theorem writeHashes_hashCount (K : List Byte) (s : State) :
    (writeHashes K s).hashCount = s.hashCount := rfl
@[simp] theorem writeHashes_mur (K : List Byte) (s : State) :
    (writeHashes K s).mur = (murmur3 K murmurSeed).setWidth 64 := rfl
@[simp] theorem writeHashes_fnv (K : List Byte) (s : State) :
    (writeHashes K s).fnv = (fnv1a K).setWidth 64 := rfl
@[simp] theorem writeHashes_h1 (K : List Byte) (s : State) :
    (writeHashes K s).h1 = BitVec.ofNat 64 (baseHash1 K s.bitCount.toNat) := rfl
@[simp] theorem writeHashes_h2 (K : List Byte) (s : State) :
    (writeHashes K s).h2 = BitVec.ofNat 64 (baseHash2 K s.bitCount.toNat) := rfl
@[simp] theorem writeHashes_pending (K : List Byte) (s : State) :
    (writeHashes K s).pending = s.pending := rfl
@[simp] theorem writeHashes_key (K : List Byte) (s : State) :
    (writeHashes K s).key = s.key := rfl
@[simp] theorem writeHashes_img (K : List Byte) (s : State) :
    (writeHashes K s).img = s.img := rfl
@[simp] theorem writeHashes_bitmem (K : List Byte) (s : State) :
    (writeHashes K s).bitmem = s.bitmem := rfl
@[simp] theorem writeHashes_schedule (K : List Byte) (s : State) :
    (writeHashes K s).schedule = s.schedule := rfl
@[simp] theorem writeHashes_response (K : List Byte) (s : State) :
    (writeHashes K s).response = s.response := rfl
@[simp] theorem writeHashes_draws (K : List Byte) (s : State) :
    (writeHashes K s).draws = s.draws := rfl

/-! ### storeImage -/

@[simp] theorem storeImage_maxBitsR (I : List Byte) (s : State) :
    (storeImage I s).maxBitsR = s.maxBitsR := rfl
@[simp] theorem storeImage_maxKeyR (I : List Byte) (s : State) :
    (storeImage I s).maxKeyR = s.maxKeyR := rfl
@[simp] theorem storeImage_cmd (I : List Byte) (s : State) :
    (storeImage I s).cmd = s.cmd := rfl
@[simp] theorem storeImage_busy (I : List Byte) (s : State) :
    (storeImage I s).busy = s.busy := rfl
@[simp] theorem storeImage_done (I : List Byte) (s : State) :
    (storeImage I s).done = s.done := rfl
@[simp] theorem storeImage_err (I : List Byte) (s : State) :
    (storeImage I s).err = s.err := rfl
@[simp] theorem storeImage_busyWrite (I : List Byte) (s : State) :
    (storeImage I s).busyWrite = s.busyWrite := rfl
@[simp] theorem storeImage_errCode (I : List Byte) (s : State) :
    (storeImage I s).errCode = s.errCode := rfl
@[simp] theorem storeImage_errDetail (I : List Byte) (s : State) :
    (storeImage I s).errDetail = s.errDetail := rfl
@[simp] theorem storeImage_arg0 (I : List Byte) (s : State) :
    (storeImage I s).arg0 = s.arg0 := rfl
@[simp] theorem storeImage_keyLen (I : List Byte) (s : State) :
    (storeImage I s).keyLen = s.keyLen := rfl
@[simp] theorem storeImage_imgLen (I : List Byte) (s : State) :
    (storeImage I s).imgLen = BitVec.ofNat 64 I.length := rfl
@[simp] theorem storeImage_result (I : List Byte) (s : State) :
    (storeImage I s).result = s.result := rfl
@[simp] theorem storeImage_errLimit (I : List Byte) (s : State) :
    (storeImage I s).errLimit = s.errLimit := rfl
@[simp] theorem storeImage_bsValid (I : List Byte) (s : State) :
    (storeImage I s).bsValid = s.bsValid := rfl
@[simp] theorem storeImage_engValid (I : List Byte) (s : State) :
    (storeImage I s).engValid = s.engValid := rfl
@[simp] theorem storeImage_compressMode (I : List Byte) (s : State) :
    (storeImage I s).compressMode = s.compressMode := rfl
@[simp] theorem storeImage_bitCount (I : List Byte) (s : State) :
    (storeImage I s).bitCount = s.bitCount := rfl
@[simp] theorem storeImage_hashCount (I : List Byte) (s : State) :
    (storeImage I s).hashCount = s.hashCount := rfl
@[simp] theorem storeImage_mur (I : List Byte) (s : State) :
    (storeImage I s).mur = s.mur := rfl
@[simp] theorem storeImage_fnv (I : List Byte) (s : State) :
    (storeImage I s).fnv = s.fnv := rfl
@[simp] theorem storeImage_h1 (I : List Byte) (s : State) :
    (storeImage I s).h1 = s.h1 := rfl
@[simp] theorem storeImage_h2 (I : List Byte) (s : State) :
    (storeImage I s).h2 = s.h2 := rfl
@[simp] theorem storeImage_pending (I : List Byte) (s : State) :
    (storeImage I s).pending = s.pending := rfl
@[simp] theorem storeImage_key (I : List Byte) (s : State) :
    (storeImage I s).key = s.key := rfl
@[simp] theorem storeImage_img (I : List Byte) (s : State) :
    (storeImage I s).img = s.img.writeBytes 0 I := rfl
@[simp] theorem storeImage_bitmem (I : List Byte) (s : State) :
    (storeImage I s).bitmem = s.bitmem := rfl
@[simp] theorem storeImage_schedule (I : List Byte) (s : State) :
    (storeImage I s).schedule = s.schedule := rfl
@[simp] theorem storeImage_response (I : List Byte) (s : State) :
    (storeImage I s).response = s.response := rfl
@[simp] theorem storeImage_draws (I : List Byte) (s : State) :
    (storeImage I s).draws = s.draws := rfl

/-! ### acceptCommand -/

@[simp] theorem acceptCommand_maxBitsR (w : Word) (s : State) :
    (acceptCommand w s).maxBitsR = s.maxBitsR := rfl
@[simp] theorem acceptCommand_maxKeyR (w : Word) (s : State) :
    (acceptCommand w s).maxKeyR = s.maxKeyR := rfl
@[simp] theorem acceptCommand_cmd (w : Word) (s : State) :
    (acceptCommand w s).cmd = w := rfl
@[simp] theorem acceptCommand_busy (w : Word) (s : State) :
    (acceptCommand w s).busy = true := rfl
@[simp] theorem acceptCommand_done (w : Word) (s : State) :
    (acceptCommand w s).done = false := rfl
@[simp] theorem acceptCommand_err (w : Word) (s : State) :
    (acceptCommand w s).err = s.err := rfl
@[simp] theorem acceptCommand_busyWrite (w : Word) (s : State) :
    (acceptCommand w s).busyWrite = s.busyWrite := rfl
@[simp] theorem acceptCommand_errCode (w : Word) (s : State) :
    (acceptCommand w s).errCode = s.errCode := rfl
@[simp] theorem acceptCommand_errDetail (w : Word) (s : State) :
    (acceptCommand w s).errDetail = s.errDetail := rfl
@[simp] theorem acceptCommand_arg0 (w : Word) (s : State) :
    (acceptCommand w s).arg0 = s.arg0 := rfl
@[simp] theorem acceptCommand_keyLen (w : Word) (s : State) :
    (acceptCommand w s).keyLen = s.keyLen := rfl
@[simp] theorem acceptCommand_imgLen (w : Word) (s : State) :
    (acceptCommand w s).imgLen = s.imgLen := rfl
@[simp] theorem acceptCommand_result (w : Word) (s : State) :
    (acceptCommand w s).result = s.result := rfl
@[simp] theorem acceptCommand_errLimit (w : Word) (s : State) :
    (acceptCommand w s).errLimit = s.errLimit := rfl
@[simp] theorem acceptCommand_bsValid (w : Word) (s : State) :
    (acceptCommand w s).bsValid = s.bsValid := rfl
@[simp] theorem acceptCommand_engValid (w : Word) (s : State) :
    (acceptCommand w s).engValid = s.engValid := rfl
@[simp] theorem acceptCommand_compressMode (w : Word) (s : State) :
    (acceptCommand w s).compressMode = s.compressMode := rfl
@[simp] theorem acceptCommand_bitCount (w : Word) (s : State) :
    (acceptCommand w s).bitCount = s.bitCount := rfl
@[simp] theorem acceptCommand_hashCount (w : Word) (s : State) :
    (acceptCommand w s).hashCount = s.hashCount := rfl
@[simp] theorem acceptCommand_mur (w : Word) (s : State) :
    (acceptCommand w s).mur = s.mur := rfl
@[simp] theorem acceptCommand_fnv (w : Word) (s : State) :
    (acceptCommand w s).fnv = s.fnv := rfl
@[simp] theorem acceptCommand_h1 (w : Word) (s : State) :
    (acceptCommand w s).h1 = s.h1 := rfl
@[simp] theorem acceptCommand_h2 (w : Word) (s : State) :
    (acceptCommand w s).h2 = s.h2 := rfl
@[simp] theorem acceptCommand_pending (w : Word) (s : State) :
    (acceptCommand w s).pending = some w := rfl
@[simp] theorem acceptCommand_key (w : Word) (s : State) :
    (acceptCommand w s).key = s.key := rfl
@[simp] theorem acceptCommand_img (w : Word) (s : State) :
    (acceptCommand w s).img = s.img := rfl
@[simp] theorem acceptCommand_bitmem (w : Word) (s : State) :
    (acceptCommand w s).bitmem = s.bitmem := rfl
@[simp] theorem acceptCommand_schedule (w : Word) (s : State) :
    (acceptCommand w s).schedule = s.schedule := rfl
@[simp] theorem acceptCommand_response (w : Word) (s : State) :
    (acceptCommand w s).response = s.response := rfl
@[simp] theorem acceptCommand_draws (w : Word) (s : State) :
    (acceptCommand w s).draws = s.draws := rfl

/-! ### answer -/

@[simp] theorem answer_maxBitsR (r : Response) (s : State) :
    (answer r s).maxBitsR = s.maxBitsR := rfl
@[simp] theorem answer_maxKeyR (r : Response) (s : State) :
    (answer r s).maxKeyR = s.maxKeyR := rfl
@[simp] theorem answer_cmd (r : Response) (s : State) :
    (answer r s).cmd = s.cmd := rfl
@[simp] theorem answer_busy (r : Response) (s : State) :
    (answer r s).busy = s.busy := rfl
@[simp] theorem answer_done (r : Response) (s : State) :
    (answer r s).done = s.done := rfl
@[simp] theorem answer_err (r : Response) (s : State) :
    (answer r s).err = s.err := rfl
@[simp] theorem answer_busyWrite (r : Response) (s : State) :
    (answer r s).busyWrite = s.busyWrite := rfl
@[simp] theorem answer_errCode (r : Response) (s : State) :
    (answer r s).errCode = s.errCode := rfl
@[simp] theorem answer_errDetail (r : Response) (s : State) :
    (answer r s).errDetail = s.errDetail := rfl
@[simp] theorem answer_arg0 (r : Response) (s : State) :
    (answer r s).arg0 = s.arg0 := rfl
@[simp] theorem answer_keyLen (r : Response) (s : State) :
    (answer r s).keyLen = s.keyLen := rfl
@[simp] theorem answer_imgLen (r : Response) (s : State) :
    (answer r s).imgLen = s.imgLen := rfl
@[simp] theorem answer_result (r : Response) (s : State) :
    (answer r s).result = s.result := rfl
@[simp] theorem answer_errLimit (r : Response) (s : State) :
    (answer r s).errLimit = s.errLimit := rfl
@[simp] theorem answer_bsValid (r : Response) (s : State) :
    (answer r s).bsValid = s.bsValid := rfl
@[simp] theorem answer_engValid (r : Response) (s : State) :
    (answer r s).engValid = s.engValid := rfl
@[simp] theorem answer_compressMode (r : Response) (s : State) :
    (answer r s).compressMode = s.compressMode := rfl
@[simp] theorem answer_bitCount (r : Response) (s : State) :
    (answer r s).bitCount = s.bitCount := rfl
@[simp] theorem answer_hashCount (r : Response) (s : State) :
    (answer r s).hashCount = s.hashCount := rfl
@[simp] theorem answer_mur (r : Response) (s : State) :
    (answer r s).mur = s.mur := rfl
@[simp] theorem answer_fnv (r : Response) (s : State) :
    (answer r s).fnv = s.fnv := rfl
@[simp] theorem answer_h1 (r : Response) (s : State) :
    (answer r s).h1 = s.h1 := rfl
@[simp] theorem answer_h2 (r : Response) (s : State) :
    (answer r s).h2 = s.h2 := rfl
@[simp] theorem answer_pending (r : Response) (s : State) :
    (answer r s).pending = s.pending := rfl
@[simp] theorem answer_key (r : Response) (s : State) :
    (answer r s).key = s.key := rfl
@[simp] theorem answer_img (r : Response) (s : State) :
    (answer r s).img = s.img := rfl
@[simp] theorem answer_bitmem (r : Response) (s : State) :
    (answer r s).bitmem = s.bitmem := rfl
@[simp] theorem answer_schedule (r : Response) (s : State) :
    (answer r s).schedule = s.schedule := rfl
@[simp] theorem answer_response (r : Response) (s : State) :
    (answer r s).response = some r := rfl
@[simp] theorem answer_draws (r : Response) (s : State) :
    (answer r s).draws = s.draws := rfl

/-! ### dropWrite -/

@[simp] theorem dropWrite_maxBitsR (s : State) :
    (dropWrite s).maxBitsR = s.maxBitsR := rfl
@[simp] theorem dropWrite_maxKeyR (s : State) :
    (dropWrite s).maxKeyR = s.maxKeyR := rfl
@[simp] theorem dropWrite_cmd (s : State) :
    (dropWrite s).cmd = s.cmd := rfl
@[simp] theorem dropWrite_busy (s : State) :
    (dropWrite s).busy = s.busy := rfl
@[simp] theorem dropWrite_done (s : State) :
    (dropWrite s).done = s.done := rfl
@[simp] theorem dropWrite_err (s : State) :
    (dropWrite s).err = s.err := rfl
@[simp] theorem dropWrite_busyWrite (s : State) :
    (dropWrite s).busyWrite = true := rfl
@[simp] theorem dropWrite_errCode (s : State) :
    (dropWrite s).errCode = s.errCode := rfl
@[simp] theorem dropWrite_errDetail (s : State) :
    (dropWrite s).errDetail = s.errDetail := rfl
@[simp] theorem dropWrite_arg0 (s : State) :
    (dropWrite s).arg0 = s.arg0 := rfl
@[simp] theorem dropWrite_keyLen (s : State) :
    (dropWrite s).keyLen = s.keyLen := rfl
@[simp] theorem dropWrite_imgLen (s : State) :
    (dropWrite s).imgLen = s.imgLen := rfl
@[simp] theorem dropWrite_result (s : State) :
    (dropWrite s).result = s.result := rfl
@[simp] theorem dropWrite_errLimit (s : State) :
    (dropWrite s).errLimit = s.errLimit := rfl
@[simp] theorem dropWrite_bsValid (s : State) :
    (dropWrite s).bsValid = s.bsValid := rfl
@[simp] theorem dropWrite_engValid (s : State) :
    (dropWrite s).engValid = s.engValid := rfl
@[simp] theorem dropWrite_compressMode (s : State) :
    (dropWrite s).compressMode = s.compressMode := rfl
@[simp] theorem dropWrite_bitCount (s : State) :
    (dropWrite s).bitCount = s.bitCount := rfl
@[simp] theorem dropWrite_hashCount (s : State) :
    (dropWrite s).hashCount = s.hashCount := rfl
@[simp] theorem dropWrite_mur (s : State) :
    (dropWrite s).mur = s.mur := rfl
@[simp] theorem dropWrite_fnv (s : State) :
    (dropWrite s).fnv = s.fnv := rfl
@[simp] theorem dropWrite_h1 (s : State) :
    (dropWrite s).h1 = s.h1 := rfl
@[simp] theorem dropWrite_h2 (s : State) :
    (dropWrite s).h2 = s.h2 := rfl
@[simp] theorem dropWrite_pending (s : State) :
    (dropWrite s).pending = s.pending := rfl
@[simp] theorem dropWrite_key (s : State) :
    (dropWrite s).key = s.key := rfl
@[simp] theorem dropWrite_img (s : State) :
    (dropWrite s).img = s.img := rfl
@[simp] theorem dropWrite_bitmem (s : State) :
    (dropWrite s).bitmem = s.bitmem := rfl
@[simp] theorem dropWrite_schedule (s : State) :
    (dropWrite s).schedule = s.schedule := rfl
@[simp] theorem dropWrite_response (s : State) :
    (dropWrite s).response = some .ok := rfl
@[simp] theorem dropWrite_draws (s : State) :
    (dropWrite s).draws = s.draws := rfl

end Sys2Proof.Machine
end

