-- ==== Sys2Proof/Laws/Memory.lean ====
section
/-! SUPPORT. The laws of a byte memory: read after write, the canonical form and the buffer's size kept by every write, runs of bytes. -/

namespace Sys2Proof.Machine

theorem Memory.read_write_same (m : Memory) (x : Nat) (v : Byte) : (m.write x v).read x = some v := by
  induction m with
  | nil => simp [Memory.write, Memory.read]
  | cons c m ih =>
    obtain ⟨a, b⟩ := c
    unfold Memory.write
    split_ifs with h1 h2
    · simp [Memory.read]
    · simp [Memory.read]
    · simp [Memory.read, ih, Ne.symm h2]

theorem Memory.read_write_other (m : Memory) {x y : Nat} (v : Byte) (h : y ≠ x) :
    (m.write x v).read y = m.read y := by
  induction m with
  | nil => simp [Memory.write, Memory.read, h.symm]
  | cons c m ih =>
    obtain ⟨a, b⟩ := c
    unfold Memory.write
    split_ifs with h1 h2
    · simp [Memory.read, h.symm]
    · subst h2; simp [Memory.read, h.symm]
    · simp [Memory.read, ih]

/-- Read after write, both cases at once. -/
theorem Memory.read_write (m : Memory) (x y : Nat) (v : Byte) :
    (m.write x v).read y = if y = x then some v else m.read y := by
  split_ifs with h
  · rw [h, Memory.read_write_same]
  · exact Memory.read_write_other m v h

/-- A write touches one cell: every other cell of the result was there before. -/
theorem Memory.mem_write {m : Memory} {x : Nat} {v : Byte} {c : Host.Cell} (h : c ∈ m.write x v) :
    c = (x, v) ∨ c ∈ m := by
  induction m with
  | nil => simpa [Memory.write] using h
  | cons d m ih =>
    obtain ⟨a, b⟩ := d
    unfold Memory.write at h
    split_ifs at h with h1 h2
    · simpa using h
    · rcases List.mem_cons.1 h with h | h <;> simp [h]
    · rcases List.mem_cons.1 h with h | h
      · simp [h]
      · rcases ih h with h | h <;> simp [h]

/-- A write keeps the canonical form. -/
theorem Memory.wf_write {m : Memory} (x : Nat) (v : Byte) (h : m.wf) : (m.write x v).wf := by
  induction m with
  | nil => simp [Memory.write, Memory.wf]
  | cons d m ih =>
    obtain ⟨a, b⟩ := d
    rw [Memory.wf, List.pairwise_cons] at h
    unfold Memory.write
    split_ifs with h1 h2
    · refine List.pairwise_cons.2 ⟨fun c hc => ?_, List.pairwise_cons.2 h⟩
      rcases List.mem_cons.1 hc with rfl | hc
      · exact h1
      · exact lt_trans h1 (h.1 c hc)
    · subst h2; exact List.pairwise_cons.2 ⟨h.1, h.2⟩
    · refine List.pairwise_cons.2 ⟨fun c hc => ?_, ih h.2⟩
      rcases Memory.mem_write hc with rfl | hc
      · show a < x; omega
      · exact h.1 c hc

theorem Inside_write {m : Memory} {x size : Nat} (v : Byte) (hm : Inside m size) (hx : x < size) :
    Inside (m.write x v) size := by
  intro c hc
  rcases Memory.mem_write hc with rfl | hc
  · exact hx
  · exact hm c hc

/-- A byte that can be read lies in some cell. -/
theorem Memory.mem_of_read {m : Memory} {x : Nat} {b : Byte} (h : m.read x = some b) : (x, b) ∈ m := by
  induction m with
  | nil => simp [Memory.read] at h
  | cons d m ih =>
    obtain ⟨a, c⟩ := d
    unfold Memory.read at h
    split_ifs at h with h1
    · simp_all
    · exact List.mem_cons_of_mem _ (ih h)

/-- A run of writes: what each offset reads as afterwards. -/
theorem Memory.read_writeBytes (m : Memory) (a y : Nat) (bs : List Byte) :
    (m.writeBytes a bs).read y = if a ≤ y ∧ y < a + bs.length then bs[y - a]? else m.read y := by
  induction bs generalizing m a with
  | nil => simp [Memory.writeBytes]
  | cons b bs ih =>
    rw [Memory.writeBytes, ih, Memory.read_write, List.length_cons]
    by_cases h : y = a
    · subst h; simp
    · by_cases h2 : a + 1 ≤ y ∧ y < a + 1 + bs.length
      · rw [if_pos h2, if_pos (by omega), show y - a = (y - (a + 1)) + 1 by omega]; simp
      · rw [if_neg h2, if_neg h, if_neg (by omega)]

theorem Memory.wf_writeBytes {m : Memory} (a : Nat) (bs : List Byte) (h : m.wf) : (m.writeBytes a bs).wf := by
  induction bs generalizing m a with
  | nil => exact h
  | cons b bs ih => exact ih (a + 1) (Memory.wf_write a b h)

theorem Inside_writeBytes {m : Memory} {a size : Nat} {bs : List Byte} (hm : Inside m size)
    (h : a + bs.length ≤ size) : Inside (m.writeBytes a bs) size := by
  induction bs generalizing m a with
  | nil => exact hm
  | cons b bs ih =>
    rw [List.length_cons] at h
    exact ih (Inside_write b hm (by omega)) (by omega)

/-- The memories of the reset state are in canonical form, and so are those a reset event leaves. -/
theorem reset_memories_wf (a b : Word) :
    (State.resetWith a b).key.wf ∧ (State.resetWith a b).img.wf ∧ (State.resetWith a b).bitmem.wf :=
  ⟨List.Pairwise.nil, List.Pairwise.nil, List.Pairwise.nil⟩

/-- Two canonical memories that read alike are equal. -/
theorem Memory.ext_read {m n : Memory} (hm : m.wf) (hn : n.wf) (h : ∀ a, m.read a = n.read a) : m = n := by
  induction m generalizing n with
  | nil =>
    cases n with
    | nil => rfl
    | cons c n => have := h c.1; simp [Memory.read] at this
  | cons c m ih =>
    obtain ⟨a, b⟩ := c
    cases n with
    | nil => have := h a; simp [Memory.read] at this
    | cons d n =>
      obtain ⟨a', b'⟩ := d
      rw [Memory.wf, List.pairwise_cons] at hm hn
      have key : ∀ {x : Nat} {p : Memory}, (∀ c ∈ p, x < c.1) → ∀ y, y ≤ x → p.read y = none := by
        intro x p hp y hy
        by_contra hne
        obtain ⟨b, hb⟩ := Option.ne_none_iff_exists'.1 hne
        have := hp _ (Memory.mem_of_read hb)
        simp only at this; omega
      have haa : a = a' := by
        rcases Nat.lt_trichotomy a a' with hl | he | hg
        · have h1 := h a
          rw [Memory.read, if_pos rfl, Memory.read, if_neg (by omega), key hn.1 a (by omega)] at h1
          simp at h1
        · exact he
        · have h1 := h a'
          rw [Memory.read, if_neg (by omega), key hm.1 a' (by omega), Memory.read, if_pos rfl] at h1
          simp at h1
      subst haa
      have h1 := h a
      simp only [Memory.read, if_true] at h1
      obtain rfl : b = b' := by simpa using h1
      congr 1
      refine ih hm.2 hn.2 fun x => ?_
      by_cases hx : x = a
      · subst hx
        rw [key hm.1 x le_rfl, key hn.1 x le_rfl]
      · have := h x
        simpa [Memory.read, Ne.symm hx] using this

/-- Reading a run of bytes that stand there. -/
theorem readBytes_of_holds {sp : Space} {m : Memory} {a : Nat} {bs : List Byte} (h : Holds m a bs) :
    readBytes sp m a bs.length = .ok bs := by
  induction bs generalizing a with
  | nil => rfl
  | cons b bs ih =>
    have h0 := h 0 (by simp)
    have ht : Holds m (a + 1) bs := by
      intro i hi
      have := h (i + 1) (by simpa using hi)
      rw [show a + 1 + i = a + (i + 1) by omega, this]; simp
    simp only [Nat.add_zero, List.getElem?_cons_zero] at h0
    simp [List.length_cons, readBytes, readByte, h0, ih ht, bind, Except.bind, pure, Except.pure]

/-- What reading a run of bytes can do: the bytes that stand there, or a fault at the first offset without a value. -/
theorem readBytes_cases (sp : Space) (m : Memory) (a n : Nat) :
    (∃ bs, readBytes sp m a n = .ok bs ∧ bs.length = n ∧ Holds m a bs) ∨
    (∃ o, a ≤ o ∧ o < a + n ∧ m.read o = none ∧ readBytes sp m a n = .error (.fault (.unwrittenByte sp o))) := by
  induction n generalizing a with
  | zero => exact .inl ⟨[], rfl, rfl, fun i hi => absurd hi (by simp)⟩
  | succ n ih =>
    rcases hb : m.read a with _ | b
    · exact .inr ⟨a, le_rfl, by omega, hb, by simp [readBytes, readByte, hb, bind, Except.bind]⟩
    · rcases ih (a + 1) with ⟨bs, h1, h2, h3⟩ | ⟨o, h1, h2, h3, h4⟩
      · refine .inl ⟨b :: bs, ?_, by simp [h2], ?_⟩
        · simp [readBytes, readByte, hb, h1, bind, Except.bind, pure, Except.pure]
        · intro i hi
          cases i with
          | zero => simpa using hb
          | succ i =>
            have := h3 i (by simpa using hi)
            rw [show a + (i + 1) = a + 1 + i by omega, this]; simp
      · exact .inr ⟨o, by omega, by omega, h3, by
          simp [readBytes, readByte, hb, h4, bind, Except.bind]⟩

end Sys2Proof.Machine
end

