-- ==== Sys2Proof/Laws/Ops.lean ====
section
/-! SUPPORT. One lemma per shared operation: what it can do. Checks, reads, the end of a command, getbit and setbit, big-endian integers. -/

namespace Sys2Proof.Machine

/-! ### Sequencing and checks -/

theorem bind_ok_iff {α β : Type} {x : Except Stop α} {f : α → Except Stop β} {r : β} :
    (x >>= f) = .ok r ↔ ∃ a, x = .ok a ∧ f a = .ok r := by
  cases x <;> simp [bind, Except.bind]

theorem bind_error_iff {α β : Type} {x : Except Stop α} {f : α → Except Stop β} {e : Stop} :
    (x >>= f) = .error e ↔ x = .error e ∨ ∃ a, x = .ok a ∧ f a = .error e := by
  cases x <;> simp [bind, Except.bind]

@[simp] theorem ok_bind {α β : Type} (a : α) (f : α → Except Stop β) : (Except.ok a >>= f) = f a := rfl

@[simp] theorem error_bind {α β : Type} (e : Stop) (f : α → Except Stop β) :
    ((Except.error e : Except Stop α) >>= f) = .error e := rfl

@[simp] theorem pure_eq_ok {α : Type} (a : α) : (pure a : Except Stop α) = .ok a := rfl

theorem require_of {p : Prop} [Decidable p] (e : CmdError) (h : p) : require p e = .ok () := by simp [require, h]

theorem require_of_not {p : Prop} [Decidable p] (e : CmdError) (h : ¬p) : require p e = .error (.raise e) := by
  simp [require, h]

@[simp] theorem require_ok_iff {p : Prop} [Decidable p] (e : CmdError) (u : Unit) : require p e = .ok u ↔ p := by
  by_cases h : p <;> simp [require, h]

@[simp] theorem require_error_iff {p : Prop} [Decidable p] (e : CmdError) (st : Stop) :
    require p e = .error st ↔ ¬p ∧ st = .raise e := by
  by_cases h : p <;> simp [require, h, eq_comm]

@[simp] theorem readByte_ok_iff {sp : Space} {m : Memory} {a : Nat} {b : Byte} :
    readByte sp m a = .ok b ↔ m.read a = some b := by
  unfold readByte; cases m.read a <;> simp

@[simp] theorem readByte_error_iff {sp : Space} {m : Memory} {a : Nat} {st : Stop} :
    readByte sp m a = .error st ↔ m.read a = none ∧ st = .fault (.unwrittenByte sp a) := by
  unfold readByte; cases m.read a <;> simp [eq_comm]

theorem readBytes_ok_iff {sp : Space} {m : Memory} {a n : Nat} {bs : List Byte} :
    readBytes sp m a n = .ok bs ↔ bs.length = n ∧ Holds m a bs := by
  constructor
  · intro h
    rcases readBytes_cases sp m a n with ⟨bs', h1, h2, h3⟩ | ⟨o, h1, h2, h3, h4⟩
    · rw [h1] at h; cases h; exact ⟨h2, h3⟩
    · rw [h4] at h; cases h
  · rintro ⟨rfl, h⟩; exact readBytes_of_holds h

theorem readBytes_error {sp : Space} {m : Memory} {a n : Nat} {st : Stop} (h : readBytes sp m a n = .error st) :
    ∃ o, a ≤ o ∧ o < a + n ∧ m.read o = none ∧ st = .fault (.unwrittenByte sp o) := by
  rcases readBytes_cases sp m a n with ⟨bs', h1, h2, h3⟩ | ⟨o, h1, h2, h3, h4⟩
  · rw [h1] at h; cases h
  · rw [h4] at h; cases h; exact ⟨o, h1, h2, h3, rfl⟩

/-- Reading over a byte without a value faults at such a byte. -/
theorem readBytes_gap (sp : Space) {m : Memory} {a n : Nat} (h : ∃ o, a ≤ o ∧ o < a + n ∧ m.read o = none) :
    ∃ o, a ≤ o ∧ o < a + n ∧ m.read o = none ∧ readBytes sp m a n = .error (.fault (.unwrittenByte sp o)) := by
  rcases readBytes_cases sp m a n with ⟨bs, -, rfl, hh⟩ | h'
  · obtain ⟨o, h1, h2, h3⟩ := h
    have := hh (o - a) (by omega)
    rw [show a + (o - a) = o by omega, h3, List.getElem?_eq_getElem (by omega)] at this
    cases this
  · exact h'

theorem readBe64_of_holds (sp : Space) {m : Memory} {a : Nat} {F : List Byte} (hl : F.length = 8) (h : Holds m a F) :
    readBe64 sp m a = .ok (beNat F) := by
  simp [readBe64, readBytes_ok_iff.2 ⟨hl, h⟩]

theorem readBe64_gap (sp : Space) {m : Memory} {a : Nat} (h : ∃ o, a ≤ o ∧ o < a + 8 ∧ m.read o = none) :
    ∃ o, a ≤ o ∧ o < a + 8 ∧ m.read o = none ∧ readBe64 sp m a = .error (.fault (.unwrittenByte sp o)) := by
  obtain ⟨o, h1, h2, h3, h4⟩ := readBytes_gap sp h
  exact ⟨o, h1, h2, h3, by simp [readBe64, h4]⟩

theorem readBe64_ok_iff {sp : Space} {m : Memory} {a n : Nat} :
    readBe64 sp m a = .ok n ↔ ∃ bs : List Byte, bs.length = 8 ∧ Holds m a bs ∧ n = beNat bs := by
  simp only [readBe64, bind_ok_iff, readBytes_ok_iff, pure_eq_ok, Except.ok.injEq, and_assoc]
  simp only [eq_comm]

theorem readBe64_error {sp : Space} {m : Memory} {a : Nat} {st : Stop} (h : readBe64 sp m a = .error st) :
    ∃ o, a ≤ o ∧ o < a + 8 ∧ m.read o = none ∧ st = .fault (.unwrittenByte sp o) := by
  simp only [readBe64, bind_error_iff, pure_eq_ok, reduceCtorEq, and_false, exists_false, or_false] at h
  exact readBytes_error h

/-! ### The end of a command -/

/-- A command that completes either commits its writes or raises an error on the state as it stood. -/
theorem conclude_next_iff {s t : State} {r : Except Stop State} :
    conclude s r = .next t ↔
      (∃ s', r = .ok s' ∧ t = finish none s') ∨ (∃ e, r = .error (.raise e) ∧ t = finish (some e) s) := by
  rcases r with (e | f) | s' <;> simp [conclude, commit, raise, eq_comm]

theorem conclude_fault_iff {s : State} {r : Except Stop State} {f : Fault} :
    conclude s r = .fault f ↔ r = .error (.fault f) := by
  rcases r with (e | f') | s' <;> simp [conclude, commit, raise]

theorem conclude_not_refused {s : State} {r : Except Stop State} {q : Refusal} : conclude s r ≠ .refused q := by
  rcases r with (e | f') | s' <;> simp [conclude, commit, raise]

/-! ### Bits -/

theorem byteBit_assign (b : Byte) (i j : Nat) (v : Bool) :
    byteBit (assignByteBit b i v) j = if j % 8 = i % 8 then v else byteBit b j := by
  have hi : i % 8 < 8 := Nat.mod_lt _ (by decide)
  have hj : j % 8 < 8 := Nat.mod_lt _ (by decide)
  unfold byteBit assignByteBit
  generalize i % 8 = p at *
  generalize j % 8 = q at *
  interval_cases p <;> interval_cases q <;> cases v <;> simp

/-- bitAt after a write of one byte. -/
theorem bitAt_write (m : Memory) (a x : Nat) (b : Byte) :
    bitAt (m.write a b) x = if x / 8 = a then byteBit b x else bitAt m x := by
  unfold bitAt byteBit
  rw [Memory.read_write]
  by_cases h : x / 8 = a <;> simp [h]

theorem getBit_ok_iff {m : Memory} {i : Nat} {v : Bool} :
    getBit m i = .ok v ↔ (m.read (i / 8)).isSome = true ∧ v = bitAt m i := by
  unfold getBit bitAt byteBit
  simp only [bind_ok_iff, readByte_ok_iff, pure_eq_ok, Except.ok.injEq]
  cases h : m.read (i / 8) <;> simp [eq_comm]

theorem getBit_error {m : Memory} {i : Nat} {st : Stop} (h : getBit m i = .error st) :
    m.read (i / 8) = none ∧ st = .fault (.unwrittenByte .bitmem (i / 8)) := by
  simpa [getBit, bind_error_iff] using h

/-- setbit: the one bit is assigned, every other bit and byte is unchanged, and no byte loses its value. -/
theorem setBit_ok {m m' : Memory} {i : Nat} {v : Bool} (h : setBit m i v = .ok m') :
    (∃ b, m.read (i / 8) = some b ∧ m' = m.write (i / 8) (assignByteBit b i v)) ∧
    (∀ x, bitAt m' x = if x = i then v else bitAt m x) ∧
    (∀ a, a ≠ i / 8 → m'.read a = m.read a) ∧ (∀ a, (m'.read a).isSome = (m.read a).isSome) := by
  simp only [setBit, bind_ok_iff, readByte_ok_iff, pure_eq_ok, Except.ok.injEq] at h
  obtain ⟨b, hb, rfl⟩ := h
  refine ⟨⟨b, hb, rfl⟩, fun x => ?_, fun a ha => Memory.read_write_other m _ ha, fun a => ?_⟩
  · rw [bitAt_write, byteBit_assign]
    by_cases hx : x / 8 = i / 8
    · by_cases hm : x % 8 = i % 8
      · have : x = i := by omega
        simp [this]
      · have : x ≠ i := by rintro rfl; exact hm rfl
        simp [hx, hm, this, bitAt, byteBit, hb]
    · have : x ≠ i := by rintro rfl; exact hx rfl
      simp [hx, this]
  · rw [Memory.read_write]; split_ifs with ha <;> simp [ha, hb]

theorem setBit_error {m : Memory} {i : Nat} {v : Bool} {st : Stop} (h : setBit m i v = .error st) :
    m.read (i / 8) = none ∧ st = .fault (.unwrittenByte .bitmem (i / 8)) := by
  simpa [setBit, bind_error_iff] using h

theorem setBit_of_held {m : Memory} {i : Nat} (v : Bool) (h : (m.read (i / 8)).isSome = true) :
    ∃ m', setBit m i v = .ok m' := by
  obtain ⟨b, hb⟩ := Option.isSome_iff_exists.1 h
  exact ⟨m.write (i / 8) (assignByteBit b i v), by simp [setBit, bind_ok_iff, hb]⟩

/-! ### Sizes and big-endian integers -/

theorem div_lt_nbytes {i c : Nat} (h : i < c) : i / 8 < nbytes c := by unfold nbytes; omega

theorem nbytes_mono {a b : Nat} (h : a ≤ b) : nbytes a ≤ nbytes b := by unfold nbytes; omega

theorem nbytes_lt (c : Word) : nbytes c.toNat < 2 ^ 61 + 1 := by
  have := c.isLt; unfold nbytes; omega

@[simp] theorem length_be64Bytes (v : Word) : (be64Bytes v).length = 8 := rfl

theorem beNat_append (xs : List Byte) (b : Byte) : beNat (xs ++ [b]) = beNat xs * 256 + b.toNat := by
  simp [beNat, List.foldl_append]

theorem beNat_lt (bs : List Byte) : beNat bs < 256 ^ bs.length := by
  induction bs using List.reverseRecOn with
  | nil => simp [beNat]
  | append_singleton xs b ih =>
    have := b.isLt
    rw [beNat_append, List.length_append, List.length_singleton, pow_succ]
    omega

/-- put_be64 and be64 agree. -/
theorem beNat_be64Bytes (v : Word) : beNat (be64Bytes v) = v.toNat := by
  have := v.isLt
  simp only [be64Bytes, beNat, List.foldl, BitVec.extractLsb'_toNat, Nat.shiftRight_eq_div_pow]
  omega

/-- put_be64 puts the most significant byte first. -/
theorem be64Bytes_get (v : Word) {t : Nat} (h : t < 8) :
    (be64Bytes v)[t]?.map BitVec.toNat = some (v.toNat / 256 ^ (7 - t) % 256) := by
  interval_cases t <;> simp [be64Bytes, BitVec.extractLsb'_toNat, Nat.shiftRight_eq_div_pow]

/-- Eight bytes are the put_be64 of the number they denote. -/
theorem be64Bytes_beNat {bs : List Byte} (h : bs.length = 8) : be64Bytes (BitVec.ofNat 64 (beNat bs)) = bs := by
  obtain ⟨a, b, c, d, e, f, g, k, rfl⟩ : ∃ a b c d e f g k, bs = [a, b, c, d, e, f, g, k] := by
    match bs, h with
    | [a, b, c, d, e, f, g, k], _ => exact ⟨a, b, c, d, e, f, g, k, rfl⟩
  have := a.isLt; have := b.isLt; have := c.isLt; have := d.isLt
  have := e.isLt; have := f.isLt; have := g.isLt; have := k.isLt
  simp only [be64Bytes, beNat, List.foldl, List.cons.injEq, and_true]
  refine ⟨?_, ?_, ?_, ?_, ?_, ?_, ?_, ?_⟩ <;> apply BitVec.eq_of_toNat_eq <;>
    simp only [BitVec.extractLsb'_toNat, BitVec.toNat_ofNat, Nat.shiftRight_eq_div_pow] <;> omega

end Sys2Proof.Machine
end

