-- ==== Sys2Proof/Laws/Commands.lean ====
section
/-! SUPPORT. One lemma per operation of the command families: operands, membership and bit setting, candidate indices, segments. -/

namespace Sys2Proof.Machine

/-! ### BitStore operands -/

theorem bitOperand_ok_iff {s : State} {i : Nat} :
    bitOperand s = .ok i ↔ s.bsValid = true ∧ s.arg0.toNat < s.bitCount.toNat ∧ i = s.arg0.toNat := by
  simp [bitOperand, bind_ok_iff]
  tauto

theorem bitOperand_error_iff {s : State} {st : Stop} :
    bitOperand s = .error st ↔
      (s.bsValid = false ∧ st = .raise .noStore) ∨
      (s.bsValid = true ∧ s.bitCount.toNat ≤ s.arg0.toNat ∧ st = .raise .bounds) := by
  simp [bitOperand, bind_error_iff]

/-! ### Hash operands -/

theorem readKey_ok_iff {s : State} {K : List Byte} : readKey s = .ok K ↔ KeyIs s K := readBytes_ok_iff

theorem hashOperand_ok_iff {s : State} {K : List Byte} : hashOperand s = .ok K ↔ Hashable s K := by
  simp [hashOperand, bind_ok_iff, readKey_ok_iff, Hashable]

/-- What a hashing command's operands can stop it with. -/
theorem hashOperand_error {s : State} {st : Stop} (h : hashOperand s = .error st) :
    (s.engValid = false ∧ st = .raise .noFilter) ∨
    (s.engValid = true ∧ maxKeyBytes s < s.keyLen.toNat ∧ st = .raise .keyTooLong) ∨
    (s.engValid = true ∧ s.keyLen.toNat ≤ maxKeyBytes s ∧
      ∃ o < s.keyLen.toNat, s.key.read o = none ∧ st = .fault (.unwrittenByte .key o)) := by
  simp [hashOperand, bind_error_iff] at h
  rcases h with h | ⟨h1, ⟨h2, h3⟩ | ⟨h2, h3⟩⟩
  · exact .inl h
  · exact .inr (.inl ⟨h1, h2, h3⟩)
  · obtain ⟨o, -, h4, h5, h6⟩ := readBytes_error h3
    exact .inr (.inr ⟨h1, h2, o, by omega, h5, h6⟩)

/-- At most one key stands in KEY[0 .. KEY_LEN-1]. -/
theorem KeyIs.unique {s : State} {K K' : List Byte} (h : KeyIs s K) (h' : KeyIs s K') : K = K' := by
  have := (readKey_ok_iff.2 h).symm.trans (readKey_ok_iff.2 h')
  simpa using this

/-! ### Membership and bit setting -/

theorem allSet_ok {m : Memory} {l : List Nat} {r : Bool} (h : allSet m l = .ok r) :
    r = true ↔ ∀ i ∈ l, bitAt m i = true := by
  induction l generalizing r with
  | nil => simp [allSet] at h; simp [← h]
  | cons i l ih =>
    simp only [allSet, bind_ok_iff, getBit_ok_iff, pure_eq_ok, Except.ok.injEq] at h
    obtain ⟨b, ⟨-, rfl⟩, r', hr', rfl⟩ := h
    simp [ih hr']

theorem allSet_of_held {m : Memory} {l : List Nat} (h : ∀ i ∈ l, (m.read (i / 8)).isSome = true) :
    ∃ r, allSet m l = .ok r := by
  induction l with
  | nil => exact ⟨true, rfl⟩
  | cons i l ih =>
    obtain ⟨r, hr⟩ := ih fun j hj => h j (List.mem_cons_of_mem _ hj)
    have hb := getBit_ok_iff.2 ⟨h i List.mem_cons_self, rfl⟩
    exact ⟨bitAt m i && r, by simp [allSet, hb, hr]⟩

theorem allSet_error {m : Memory} {l : List Nat} {st : Stop} (h : allSet m l = .error st) :
    ∃ i ∈ l, m.read (i / 8) = none ∧ st = .fault (.unwrittenByte .bitmem (i / 8)) := by
  induction l with
  | nil => simp [allSet] at h
  | cons i l ih =>
    simp only [allSet, bind_error_iff, pure_eq_ok, reduceCtorEq, and_false, exists_false, or_false] at h
    rcases h with h | ⟨b, -, h⟩
    · exact ⟨i, List.mem_cons_self, getBit_error h⟩
    · obtain ⟨j, hj, h⟩ := ih h; exact ⟨j, List.mem_cons_of_mem _ hj, h⟩

/-- Setting a list of bits sets those bits, changes no other bit and no other byte, and no byte loses its value. -/
theorem setAll_ok {m m' : Memory} {l : List Nat} (h : setAll m l = .ok m') :
    (∀ x, bitAt m' x = true ↔ bitAt m x = true ∨ x ∈ l) ∧ (∀ a, (m'.read a).isSome = (m.read a).isSome) ∧
    (∀ a, (∀ i ∈ l, i / 8 ≠ a) → m'.read a = m.read a) := by
  induction l generalizing m with
  | nil => simp [setAll] at h; subst h; simp
  | cons i l ih =>
    simp only [setAll, bind_ok_iff] at h
    obtain ⟨n, hn, h⟩ := h
    obtain ⟨-, h1, h2, h3⟩ := setBit_ok hn
    obtain ⟨h4, h5, h6⟩ := ih h
    refine ⟨fun x => ?_, fun a => (h5 a).trans (h3 a), fun a ha => ?_⟩
    · rw [h4, h1, List.mem_cons]
      by_cases hx : x = i <;> simp [hx]
    · rw [h6 a fun j hj => ha j (List.mem_cons_of_mem _ hj), h2 a (ha i List.mem_cons_self).symm]

theorem setAll_of_held {m : Memory} {l : List Nat} (h : ∀ i ∈ l, (m.read (i / 8)).isSome = true) :
    ∃ m', setAll m l = .ok m' := by
  induction l generalizing m with
  | nil => exact ⟨m, rfl⟩
  | cons i l ih =>
    obtain ⟨n, hn⟩ := setBit_of_held true (h i List.mem_cons_self)
    obtain ⟨-, -, -, h2⟩ := setBit_ok hn
    obtain ⟨m', hm'⟩ := ih (m := n) fun j hj => by rw [h2]; exact h j (List.mem_cons_of_mem _ hj)
    exact ⟨m', by simp [setAll, hn, hm']⟩

theorem setAll_error {m : Memory} {l : List Nat} {st : Stop} (h : setAll m l = .error st) :
    ∃ i ∈ l, m.read (i / 8) = none ∧ st = .fault (.unwrittenByte .bitmem (i / 8)) := by
  induction l generalizing m with
  | nil => simp [setAll] at h
  | cons i l ih =>
    simp only [setAll, bind_error_iff] at h
    rcases h with h | ⟨n, hn, h⟩
    · exact ⟨i, List.mem_cons_self, setBit_error h⟩
    · obtain ⟨j, hj, h1, h2⟩ := ih h
      obtain ⟨-, -, -, h3⟩ := setBit_ok hn
      have := h3 (j / 8)
      rw [h1] at this
      exact ⟨j, List.mem_cons_of_mem _ hj, by simpa using this.symm, h2⟩

/-- setbit keeps the canonical form and the size of the bit memory. -/
theorem setBit_form {m m' : Memory} {i : Nat} {v : Bool} (h : setBit m i v = .ok m') :
    (m.wf → m'.wf) ∧ ∀ size, Inside m size → Inside m' size := by
  obtain ⟨⟨b, hb, rfl⟩, -⟩ := setBit_ok h
  exact ⟨fun hw => Memory.wf_write _ _ hw, fun size hs => Inside_write _ hs (hs _ (Memory.mem_of_read hb))⟩

/-- Setting bits keeps the canonical form and the size of the bit memory. -/
theorem setAll_form {m m' : Memory} {l : List Nat} (h : setAll m l = .ok m') :
    (m.wf → m'.wf) ∧ ∀ size, Inside m size → Inside m' size := by
  induction l generalizing m with
  | nil => simp [setAll] at h; subst h; simp
  | cons i l ih =>
    simp only [setAll, bind_ok_iff] at h
    obtain ⟨n, hn, h⟩ := h
    obtain ⟨h1, h2⟩ := ih h
    obtain ⟨h3, h4⟩ := setBit_form hn
    exact ⟨fun hw => h1 (h3 hw), fun size hs => h2 size (h4 size hs)⟩

/-! ### Chunks -/

/-- Four bytes at a time, by position: the body over the whole chunks, then what is left. -/
theorem foldChunks_eq {α : Type} (body last : α → List Byte → α) : ∀ (K : List Byte) (h : α),
    foldChunks body last K h =
      last ((List.range (K.length / 4)).foldl (fun h c => body h ((K.drop (4 * c)).take 4)) h)
        (K.drop (4 * (K.length / 4)))
  | [], h => by simp [foldChunks]
  | [a], h => by simp [foldChunks]
  | [a, b], h => by simp [foldChunks]
  | [a, b, c], h => by simp [foldChunks]
  | a :: b :: c :: d :: rest, h => by
    have e1 : (a :: b :: c :: d :: rest).length / 4 = rest.length / 4 + 1 := by simp only [List.length_cons]; omega
    have e2 : ∀ n, (a :: b :: c :: d :: rest).drop (4 * (n + 1)) = rest.drop (4 * n) := fun n => by
      rw [show 4 * (n + 1) = 4 * n + 1 + 1 + 1 + 1 by omega]; simp
    rw [foldChunks, foldChunks_eq body last rest]
    simp only [e1, e2, List.range_succ_eq_map, List.foldl_cons, List.foldl_map]
    rfl

/-! ### Candidate indices -/

theorem indexOf_lt {K : List Byte} {m : Nat} (hm : 1 ≤ m) (j : Nat) : indexOf K m j < m := Nat.mod_lt _ hm

theorem indexOf_mod {K : List Byte} {m : Nat} (j : Nat) : indexOf K m j = indexOf K m (j % m) := by
  unfold indexOf
  rw [Nat.add_mod, Nat.mul_mod, Nat.add_mod (baseHash1 K m) (j % m * baseHash2 K m), Nat.mul_mod (j % m)]
  simp

theorem candidates_lt {K : List Byte} {m k x : Nat} (hm : 1 ≤ m) (h : x ∈ candidates K m k) : x < m := by
  obtain ⟨j, -, rfl⟩ := List.mem_map.1 h
  exact indexOf_lt hm j

/-! ### Images -/

theorem holds_append {m : Memory} {a : Nat} {xs ys : List Byte} :
    Holds m a (xs ++ ys) ↔ Holds m a xs ∧ Holds m (a + xs.length) ys := by
  constructor
  · intro h
    refine ⟨fun i hi => ?_, fun i hi => ?_⟩
    · rw [h i (by simp; omega), List.getElem?_append_left hi]
    · rw [Nat.add_assoc, h (xs.length + i) (by simp; omega), List.getElem?_append_right (by omega)]
      simp
  · rintro ⟨h1, h2⟩ i hi
    by_cases hx : i < xs.length
    · rw [h1 i hx, List.getElem?_append_left hx]
    · rw [List.length_append] at hi
      have := h2 (i - xs.length) (by omega)
      rw [show a + xs.length + (i - xs.length) = a + i by omega] at this
      rw [this, List.getElem?_append_right (by omega)]

theorem holds_unique {m : Memory} {a : Nat} {xs ys : List Byte} (hx : Holds m a xs) (hy : Holds m a ys)
    (h : xs.length = ys.length) : xs = ys := by
  have := readBytes_of_holds (sp := .img) hx
  rw [h, readBytes_of_holds hy] at this
  simpa using this.symm

theorem holds_writeBytes (m : Memory) (a : Nat) (bs : List Byte) : Holds (m.writeBytes a bs) a bs := by
  intro i hi
  rw [Memory.read_writeBytes, if_pos (by omega)]
  simp

@[simp] theorem length_segmentImage (c : Word) (B : List Byte) : (segmentImage c B).length = 16 + B.length := by
  simp [segmentImage]; omega

@[simp] theorem length_filterImage (c : Word) (B : List Byte) (k : Word) (m : Byte) :
    (filterImage c B k m).length = 25 + B.length := by
  simp [filterImage]; omega

/-- EncSeg gives the BitStore image of the store. -/
theorem encodeSegment_ok_iff {s : State} {I : List Byte} :
    encodeSegment s = .ok I ↔ ∃ B, StoreIs s B ∧ I = segmentImage s.bitCount B := by
  simp only [encodeSegment, bind_ok_iff, readBytes_ok_iff, pure_eq_ok, Except.ok.injEq]
  constructor
  · rintro ⟨B, h, rfl⟩; exact ⟨B, h, by rw [segmentImage, h.1]⟩
  · rintro ⟨B, h, rfl⟩; exact ⟨B, h, by rw [segmentImage, h.1]⟩

theorem encodeSegment_error {s : State} {st : Stop} (h : encodeSegment s = .error st) :
    ∃ o < nbytes s.bitCount.toNat, s.bitmem.read o = none ∧ st = .fault (.unwrittenByte .bitmem o) := by
  simp only [encodeSegment, bind_error_iff, pure_eq_ok, reduceCtorEq, and_false, exists_false, or_false] at h
  obtain ⟨o, -, h1, h2, h3⟩ := readBytes_error h
  exact ⟨o, by omega, h2, h3⟩

/-- ParseSeg succeeds exactly on the frame of a segment: byte_length, room for the bytes, bit_count, nothing after. -/
theorem parseSegment_ok_iff {m : Memory} {S nb bc : Nat} :
    parseSegment m S = .ok (nb, bc) ↔
      S = 16 + nb ∧ nb = nbytes bc ∧ nb < 2 ^ 64 ∧ bc < 2 ^ 64 ∧
      Holds m 0 (be64Bytes (BitVec.ofNat 64 nb)) ∧ Holds m (8 + nb) (be64Bytes (BitVec.ofNat 64 bc)) := by
  simp only [parseSegment, bind_ok_iff, require_ok_iff, readBe64_ok_iff, pure_eq_ok, Except.ok.injEq,
    Prod.mk.injEq, exists_const]
  constructor
  · rintro ⟨h8, _, ⟨X, hX, hX0, rfl⟩, h1, _, ⟨Y, hY, hY0, rfl⟩, h2, h3, rfl, rfl⟩
    have l1 := beNat_lt X
    have l2 := beNat_lt Y
    rw [hX] at l1; rw [hY] at l2
    refine ⟨h2, h3, by simpa using l1, by simpa using l2, ?_, ?_⟩
    · rwa [be64Bytes_beNat hX]
    · rwa [be64Bytes_beNat hY]
  · rintro ⟨rfl, h2, h3, h4, h5, h6⟩
    refine ⟨by omega, nb, ⟨_, rfl, h5, ?_⟩, le_rfl, bc, ⟨_, rfl, h6, ?_⟩, rfl, h2, rfl, rfl⟩
    · rw [beNat_be64Bytes, BitVec.toNat_ofNat, Nat.mod_eq_of_lt h3]
    · rw [beNat_be64Bytes, BitVec.toNat_ofNat, Nat.mod_eq_of_lt h4]

/-- What ParseSeg can stop with: one of three format errors, or a byte of the image without a value. -/
theorem parseSegment_error {m : Memory} {S : Nat} {st : Stop} (h : parseSegment m S = .error st) :
    (st = .raise .formatOverrun ∨ st = .raise .formatTrailing ∨ st = .raise .formatLength) ∨
    ∃ o < S, m.read o = none ∧ st = .fault (.unwrittenByte .img o) := by
  simp only [parseSegment, bind_error_iff, require_ok_iff, require_error_iff, pure_eq_ok, reduceCtorEq, and_false,
    exists_false, or_false, exists_const] at h
  rcases h with ⟨-, rfl⟩ | ⟨h8, h | ⟨nb, hnb, ⟨-, rfl⟩ | ⟨h1, h | ⟨bc, hbc, ⟨-, rfl⟩ | ⟨h2, -, rfl⟩⟩⟩⟩⟩
  · simp
  · obtain ⟨o, -, h1, h2, h3⟩ := readBe64_error h
    exact .inr ⟨o, by omega, h2, h3⟩
  · simp
  · obtain ⟨o, -, h2, h3, h4⟩ := readBe64_error h
    exact .inr ⟨o, by omega, h3, h4⟩
  · simp
  · simp

end Sys2Proof.Machine
end

