-- ==== Sys2Proof/Laws/Exec.lean ====
section
/-! SUPPORT. What each instruction can do, said once: how exec answers a next state (Effect and exec_next), when it faults. -/

namespace Sys2Proof.Machine

/-- The state a successful command commits, before its completion (40_bitstore.md to 43_codec.md). -/
def Effect (i : Instr) (s s' : State) : Prop :=
  match i with
  | .bsNew => s.arg0.toNat ≤ maxBits s ∧
      s' = installStore s.arg0 (List.replicate (nbytes s.arg0.toNat) 0) 0 0 false s
  | .bitSet0 => s.bsValid = true ∧ s.arg0.toNat < s.bitCount.toNat ∧
      ∃ m, setBit s.bitmem s.arg0.toNat false = .ok m ∧ s' = { s with bitmem := m }
  | .bitSet1 => s.bsValid = true ∧ s.arg0.toNat < s.bitCount.toNat ∧
      ∃ m, setBit s.bitmem s.arg0.toNat true = .ok m ∧ s' = { s with bitmem := m }
  | .bitGet => s.bsValid = true ∧ s.arg0.toNat < s.bitCount.toNat ∧
      (s.bitmem.read (s.arg0.toNat / 8)).isSome = true ∧
      s' = { s with result := (BitVec.ofBool (bitAt s.bitmem s.arg0.toNat)).setWidth 64 }
  | .hash => ∃ K, Hashable s K ∧ s' = writeHashes K s
  | .index => ∃ K, Hashable s K ∧
      s' = { writeHashes K s with result := BitVec.ofNat 64 (indexOf K s.bitCount.toNat s.arg0.toNat) }
  | .new0 => s.arg0.toNat ≠ 0 ∧ sizedBits s.arg0.toNat ≤ maxBits s ∧
      s' = installStore (BitVec.ofNat 64 (sizedBits s.arg0.toNat))
        (List.replicate (nbytes (sizedBits s.arg0.toNat)) 0) filterHashes 0 true s
  | .new1 => s.arg0.toNat ≠ 0 ∧ sizedBits s.arg0.toNat ≤ maxBits s ∧
      s' = installStore (BitVec.ofNat 64 (sizedBits s.arg0.toNat))
        (List.replicate (nbytes (sizedBits s.arg0.toNat)) 0) filterHashes 1 true s
  | .insert => ∃ K, Hashable s K ∧
      ((allSet s.bitmem (keyBits s K) = .ok true ∧ s' = { writeHashes K s with result := boolWord false }) ∨
       (allSet s.bitmem (keyBits s K) = .ok false ∧ ∃ m, setAll s.bitmem (keyBits s K) = .ok m ∧
          s' = { writeHashes K s with bitmem := m, result := boolWord true }))
  | .lookup => ∃ K, Hashable s K ∧ ∃ r, allSet s.bitmem (keyBits s K) = .ok r ∧
      s' = { writeHashes K s with result := boolWord r }
  | .bsSave => s.bsValid = true ∧ ∃ B, StoreIs s B ∧ s' = storeImage (segmentImage s.bitCount B) s
  | .bsLoad => ∃ (c : Word) (B : List Byte), s.imgLen.toNat ≤ maxImageBytes s ∧ B.length = nbytes c.toNat ∧
      c.toNat ≤ maxBits s ∧ ImageIs s (segmentImage c B) ∧ s' = installStore c B 0 0 false s
  | .save => s.engValid = true ∧ ∃ B, StoreIs s B ∧
      s' = storeImage (filterImage s.bitCount B s.hashCount s.compressMode) s
  | .load => ∃ (c k : Word) (mode : Byte) (B : List Byte), s.imgLen.toNat ≤ maxImageBytes s ∧
      B.length = nbytes c.toNat ∧ c.toNat ≤ maxBits s ∧ c ≠ 0 ∧ k ≠ 0 ∧ mode.toNat ≤ 1 ∧
      ImageIs s (filterImage c B k mode) ∧ s' = installStore c B k mode true s

/-- The errors an instruction can raise (60_exceptions.md R242). -/
def errorsOf : Instr → List CmdError
  | .bsNew => [.capacityNew]
  | .bitSet0 => [.noStore, .bounds]
  | .bitSet1 => [.noStore, .bounds]
  | .bitGet => [.noStore, .bounds]
  | .hash => [.noFilter, .keyTooLong]
  | .index => [.noFilter, .keyTooLong]
  | .new0 => [.config, .capacityNew]
  | .new1 => [.config, .capacityNew]
  | .insert => [.noFilter, .keyTooLong]
  | .lookup => [.noFilter, .keyTooLong]
  | .bsSave => [.noStore]
  | .bsLoad => [.imageTooLong, .formatOverrun, .formatTrailing, .formatLength, .capacityLoad]
  | .save => [.noFilter]
  | .load => [.imageTooLong, .formatShort, .formatMode, .formatOverrun, .formatTrailing, .formatLength, .formatZero,
      .capacityLoad]

/-- The frame of a BitStore image inside IMG, put together and taken apart. -/
theorem imageIs_segment_iff {s : State} {c : Word} {B : List Byte} :
    ImageIs s (segmentImage c B) ↔
      s.imgLen.toNat = 16 + B.length ∧ Holds s.img 0 (be64Bytes (BitVec.ofNat 64 B.length)) ∧
      Holds s.img 8 B ∧ Holds s.img (8 + B.length) (be64Bytes c) := by
  rw [ImageIs, length_segmentImage, segmentImage, holds_append, holds_append]
  simp only [length_be64Bytes, List.length_append, Nat.zero_add]
  constructor
  · rintro ⟨h, ⟨h1, h2⟩, h3⟩; exact ⟨h.symm, h1, h2, h3⟩
  · rintro ⟨h, h1, h2, h3⟩; exact ⟨h.symm, ⟨h1, h2⟩, h3⟩

theorem imageIs_filter_iff {s : State} {c k : Word} {mode : Byte} {B : List Byte} :
    ImageIs s (filterImage c B k mode) ↔
      s.imgLen.toNat = 25 + B.length ∧ Holds s.img 0 (be64Bytes (BitVec.ofNat 64 B.length)) ∧
      Holds s.img 8 B ∧ Holds s.img (8 + B.length) (be64Bytes c) ∧
      Holds s.img (16 + B.length) (be64Bytes k) ∧ s.img.read (24 + B.length) = some mode := by
  rw [ImageIs, length_filterImage, filterImage, segmentImage]
  simp only [holds_append, length_be64Bytes, List.length_append, Nat.zero_add]
  rw [show 8 + B.length + 8 = 16 + B.length by omega, show 16 + B.length + 8 = 24 + B.length by omega]
  have hm : Holds s.img (24 + B.length) [mode] ↔ s.img.read (24 + B.length) = some mode := by
    constructor
    · intro h; simpa using h 0 (by simp)
    · intro h i hi
      obtain rfl : i = 0 := by simpa using hi
      simpa using h
  rw [hm]
  constructor
  · rintro ⟨h, ⟨⟨⟨h1, h2⟩, h3⟩, h4⟩, h5⟩; exact ⟨h.symm, h1, h2, h3, h4, h5⟩
  · rintro ⟨h, h1, h2, h3, h4, h5⟩; exact ⟨h.symm, ⟨⟨⟨h1, h2⟩, h3⟩, h4⟩, h5⟩

/-! ### One inversion lemma per instruction -/

theorem bsNew_next {s t : State} (h : execBsNew s = .next t) :
    (∃ e ∈ errorsOf .bsNew, t = finish (some e) s) ∨ ∃ s', Effect .bsNew s s' ∧ t = finish none s' := by
  replace h := conclude_next_iff.1 h
  rcases h with ⟨s', h, rfl⟩ | ⟨e, h, rfl⟩
  · simp only [bind_ok_iff, require_ok_iff, pure_eq_ok, Except.ok.injEq, exists_const] at h
    exact .inr ⟨s', ⟨h.1, h.2.symm⟩, rfl⟩
  · simp only [bind_error_iff, require_error_iff, pure_eq_ok, reduceCtorEq, and_false, exists_false, or_false,
      Stop.raise.injEq] at h
    exact .inl ⟨e, by simp [errorsOf, h.2], rfl⟩

theorem assignBit_ok {v : Bool} {s s' : State} (h : assignBit v s = .ok s') :
    s.bsValid = true ∧ s.arg0.toNat < s.bitCount.toNat ∧
      ∃ m, setBit s.bitmem s.arg0.toNat v = .ok m ∧ s' = { s with bitmem := m } := by
  simp only [assignBit, bind_ok_iff, bitOperand_ok_iff, pure_eq_ok, Except.ok.injEq] at h
  obtain ⟨_, ⟨h1, h2, rfl⟩, m, h3, rfl⟩ := h
  exact ⟨h1, h2, m, h3, rfl⟩

theorem assignBit_error {v : Bool} {s : State} {st : Stop} (h : assignBit v s = .error st) :
    (s.bsValid = false ∧ st = .raise .noStore) ∨
    (s.bsValid = true ∧ s.bitCount.toNat ≤ s.arg0.toNat ∧ st = .raise .bounds) ∨
    (s.bsValid = true ∧ s.arg0.toNat < s.bitCount.toNat ∧ s.bitmem.read (s.arg0.toNat / 8) = none ∧
      st = .fault (.unwrittenByte .bitmem (s.arg0.toNat / 8))) := by
  simp only [assignBit, bind_error_iff, bitOperand_ok_iff, bitOperand_error_iff, pure_eq_ok, reduceCtorEq, and_false,
    exists_false, or_false] at h
  rcases h with (h | h) | ⟨_, ⟨h1, h2, rfl⟩, h⟩
  · exact .inl h
  · exact .inr (.inl h)
  · exact .inr (.inr ⟨h1, h2, setBit_error h⟩)

theorem bitSet0_next {s t : State} (h : execBitSet0 s = .next t) :
    (∃ e ∈ errorsOf .bitSet0, t = finish (some e) s) ∨ ∃ s', Effect .bitSet0 s s' ∧ t = finish none s' := by
  replace h := conclude_next_iff.1 h
  rcases h with ⟨s', h, rfl⟩ | ⟨e, h, rfl⟩
  · exact .inr ⟨s', assignBit_ok h, rfl⟩
  · refine .inl ⟨e, ?_, rfl⟩
    rcases assignBit_error h with ⟨-, h⟩ | ⟨-, -, h⟩ | ⟨-, -, -, h⟩ <;> simp_all [errorsOf]

theorem bitSet1_next {s t : State} (h : execBitSet1 s = .next t) :
    (∃ e ∈ errorsOf .bitSet1, t = finish (some e) s) ∨ ∃ s', Effect .bitSet1 s s' ∧ t = finish none s' := by
  replace h := conclude_next_iff.1 h
  rcases h with ⟨s', h, rfl⟩ | ⟨e, h, rfl⟩
  · exact .inr ⟨s', assignBit_ok h, rfl⟩
  · refine .inl ⟨e, ?_, rfl⟩
    rcases assignBit_error h with ⟨-, h⟩ | ⟨-, -, h⟩ | ⟨-, -, -, h⟩ <;> simp_all [errorsOf]

theorem bitGet_next {s t : State} (h : execBitGet s = .next t) :
    (∃ e ∈ errorsOf .bitGet, t = finish (some e) s) ∨ ∃ s', Effect .bitGet s s' ∧ t = finish none s' := by
  replace h := conclude_next_iff.1 h
  rcases h with ⟨s', h, rfl⟩ | ⟨e, h, rfl⟩
  · simp only [bind_ok_iff, bitOperand_ok_iff, getBit_ok_iff, pure_eq_ok, Except.ok.injEq] at h
    obtain ⟨_, ⟨h1, h2, rfl⟩, _, ⟨h3, rfl⟩, rfl⟩ := h
    exact .inr ⟨_, ⟨h1, h2, h3, rfl⟩, rfl⟩
  · refine .inl ⟨e, ?_, rfl⟩
    simp only [bind_error_iff, bitOperand_ok_iff, bitOperand_error_iff, pure_eq_ok, reduceCtorEq, and_false,
      exists_false, or_false, Stop.raise.injEq] at h
    rcases h with (⟨-, rfl⟩ | ⟨-, -, rfl⟩) | ⟨i, -, h⟩
    · simp [errorsOf]
    · simp [errorsOf]
    · cases (getBit_error h).2

/-- The errors of the four hashing commands. -/
theorem hashOperand_raise {s : State} {e : CmdError} (h : hashOperand s = .error (.raise e)) :
    e = .noFilter ∨ e = .keyTooLong := by
  rcases hashOperand_error h with ⟨-, h⟩ | ⟨-, -, h⟩ | ⟨-, -, o, -, -, h⟩ <;> simp_all

theorem hash_next {s t : State} (h : execHash s = .next t) :
    (∃ e ∈ errorsOf .hash, t = finish (some e) s) ∨ ∃ s', Effect .hash s s' ∧ t = finish none s' := by
  replace h := conclude_next_iff.1 h
  rcases h with ⟨s', h, rfl⟩ | ⟨e, h, rfl⟩
  · simp only [bind_ok_iff, hashOperand_ok_iff, pure_eq_ok, Except.ok.injEq] at h
    obtain ⟨K, h1, h2⟩ := h
    exact .inr ⟨s', ⟨K, h1, h2.symm⟩, rfl⟩
  · simp only [bind_error_iff, pure_eq_ok, reduceCtorEq, and_false, exists_false, or_false] at h
    exact .inl ⟨e, by simpa [errorsOf] using hashOperand_raise h, rfl⟩

theorem index_next {s t : State} (h : execIndex s = .next t) :
    (∃ e ∈ errorsOf .index, t = finish (some e) s) ∨ ∃ s', Effect .index s s' ∧ t = finish none s' := by
  replace h := conclude_next_iff.1 h
  rcases h with ⟨s', h, rfl⟩ | ⟨e, h, rfl⟩
  · simp only [bind_ok_iff, hashOperand_ok_iff, pure_eq_ok, Except.ok.injEq] at h
    obtain ⟨K, h1, h2⟩ := h
    exact .inr ⟨s', ⟨K, h1, h2.symm⟩, rfl⟩
  · simp only [bind_error_iff, pure_eq_ok, reduceCtorEq, and_false, exists_false, or_false] at h
    exact .inl ⟨e, by simpa [errorsOf] using hashOperand_raise h, rfl⟩

theorem lookup_next {s t : State} (h : execLookup s = .next t) :
    (∃ e ∈ errorsOf .lookup, t = finish (some e) s) ∨ ∃ s', Effect .lookup s s' ∧ t = finish none s' := by
  replace h := conclude_next_iff.1 h
  rcases h with ⟨s', h, rfl⟩ | ⟨e, h, rfl⟩
  · simp only [bind_ok_iff, hashOperand_ok_iff, pure_eq_ok, Except.ok.injEq] at h
    obtain ⟨K, h1, r, h2, h3⟩ := h
    exact .inr ⟨s', ⟨K, h1, r, h2, h3.symm⟩, rfl⟩
  · simp only [bind_error_iff, pure_eq_ok, reduceCtorEq, and_false, exists_false, or_false] at h
    rcases h with h | ⟨K, -, h⟩
    · exact .inl ⟨e, by simpa [errorsOf] using hashOperand_raise h, rfl⟩
    · obtain ⟨i, -, -, h⟩ := allSet_error h; cases h

theorem insert_next {s t : State} (h : execInsert s = .next t) :
    (∃ e ∈ errorsOf .insert, t = finish (some e) s) ∨ ∃ s', Effect .insert s s' ∧ t = finish none s' := by
  replace h := conclude_next_iff.1 h
  rcases h with ⟨s', h, rfl⟩ | ⟨e, h, rfl⟩
  · simp only [bind_ok_iff, hashOperand_ok_iff] at h
    obtain ⟨K, h1, r, h2, h3⟩ := h
    refine .inr ⟨s', ⟨K, h1, ?_⟩, rfl⟩
    cases r
    · simp only [Bool.false_eq_true, if_false, bind_ok_iff, pure_eq_ok, Except.ok.injEq] at h3
      obtain ⟨m, h3, h4⟩ := h3
      exact .inr ⟨h2, m, h3, h4.symm⟩
    · simp only [if_true, pure_eq_ok, Except.ok.injEq] at h3
      exact .inl ⟨h2, h3.symm⟩
  · simp only [bind_error_iff] at h
    rcases h with h | ⟨K, -, h | ⟨r, -, h⟩⟩
    · exact .inl ⟨e, by simpa [errorsOf] using hashOperand_raise h, rfl⟩
    · obtain ⟨i, -, -, h⟩ := allSet_error h; cases h
    · cases r
      · simp only [Bool.false_eq_true, if_false, bind_error_iff, pure_eq_ok, reduceCtorEq, and_false, exists_false,
          or_false] at h
        obtain ⟨i, -, -, h⟩ := setAll_error h; cases h
      · simp at h

theorem newFilter_ok {mode : Byte} {s s' : State} (h : newFilter mode s = .ok s') :
    s.arg0.toNat ≠ 0 ∧ sizedBits s.arg0.toNat ≤ maxBits s ∧
      s' = installStore (BitVec.ofNat 64 (sizedBits s.arg0.toNat))
        (List.replicate (nbytes (sizedBits s.arg0.toNat)) 0) filterHashes mode true s := by
  simp only [newFilter, bind_ok_iff, require_ok_iff, pure_eq_ok, Except.ok.injEq, exists_const] at h
  exact ⟨h.1, h.2.1, h.2.2.symm⟩

theorem newFilter_error_iff {mode : Byte} {s : State} {st : Stop} :
    newFilter mode s = .error st ↔ (s.arg0.toNat = 0 ∧ st = .raise .config) ∨
      (s.arg0.toNat ≠ 0 ∧ maxBits s < sizedBits s.arg0.toNat ∧ st = .raise .capacityNew) := by
  simp only [newFilter, bind_error_iff, require_ok_iff, require_error_iff, pure_eq_ok, reduceCtorEq, and_false,
    exists_false, or_false, exists_const, not_not, not_le, ne_eq]

theorem new0_next {s t : State} (h : execNew0 s = .next t) :
    (∃ e ∈ errorsOf .new0, t = finish (some e) s) ∨ ∃ s', Effect .new0 s s' ∧ t = finish none s' := by
  replace h := conclude_next_iff.1 h
  rcases h with ⟨s', h, rfl⟩ | ⟨e, h, rfl⟩
  · exact .inr ⟨s', newFilter_ok h, rfl⟩
  · refine .inl ⟨e, ?_, rfl⟩
    rcases newFilter_error_iff.1 h with ⟨-, h⟩ | ⟨-, -, h⟩ <;> simp_all [errorsOf]

theorem new1_next {s t : State} (h : execNew1 s = .next t) :
    (∃ e ∈ errorsOf .new1, t = finish (some e) s) ∨ ∃ s', Effect .new1 s s' ∧ t = finish none s' := by
  replace h := conclude_next_iff.1 h
  rcases h with ⟨s', h, rfl⟩ | ⟨e, h, rfl⟩
  · exact .inr ⟨s', newFilter_ok h, rfl⟩
  · refine .inl ⟨e, ?_, rfl⟩
    rcases newFilter_error_iff.1 h with ⟨-, h⟩ | ⟨-, -, h⟩ <;> simp_all [errorsOf]

theorem bsSave_next {s t : State} (h : execBsSave s = .next t) :
    (∃ e ∈ errorsOf .bsSave, t = finish (some e) s) ∨ ∃ s', Effect .bsSave s s' ∧ t = finish none s' := by
  replace h := conclude_next_iff.1 h
  rcases h with ⟨s', h, rfl⟩ | ⟨e, h, rfl⟩
  · simp only [bind_ok_iff, require_ok_iff, encodeSegment_ok_iff, pure_eq_ok, Except.ok.injEq, exists_const] at h
    obtain ⟨h1, I, ⟨B, h2, rfl⟩, rfl⟩ := h
    exact .inr ⟨_, ⟨h1, B, h2, rfl⟩, rfl⟩
  · simp only [bind_error_iff, require_error_iff, pure_eq_ok, reduceCtorEq, and_false, exists_false, or_false,
      Stop.raise.injEq] at h
    rcases h with ⟨-, rfl⟩ | ⟨_, -, h⟩
    · exact .inl ⟨_, by simp [errorsOf], rfl⟩
    · obtain ⟨o, -, -, h⟩ := encodeSegment_error h; cases h

theorem save_next {s t : State} (h : execSave s = .next t) :
    (∃ e ∈ errorsOf .save, t = finish (some e) s) ∨ ∃ s', Effect .save s s' ∧ t = finish none s' := by
  replace h := conclude_next_iff.1 h
  rcases h with ⟨s', h, rfl⟩ | ⟨e, h, rfl⟩
  · simp only [bind_ok_iff, require_ok_iff, encodeSegment_ok_iff, pure_eq_ok, Except.ok.injEq, exists_const] at h
    obtain ⟨h1, I, ⟨B, h2, rfl⟩, rfl⟩ := h
    exact .inr ⟨_, ⟨h1, B, h2, rfl⟩, rfl⟩
  · simp only [bind_error_iff, require_error_iff, pure_eq_ok, reduceCtorEq, and_false, exists_false, or_false,
      Stop.raise.injEq] at h
    rcases h with ⟨-, rfl⟩ | ⟨_, -, h⟩
    · exact .inl ⟨_, by simp [errorsOf], rfl⟩
    · obtain ⟨o, -, -, h⟩ := encodeSegment_error h; cases h

theorem bsLoad_next {s t : State} (h : execBsLoad s = .next t) :
    (∃ e ∈ errorsOf .bsLoad, t = finish (some e) s) ∨ ∃ s', Effect .bsLoad s s' ∧ t = finish none s' := by
  replace h := conclude_next_iff.1 h
  rcases h with ⟨s', h, rfl⟩ | ⟨e, h, rfl⟩
  · simp only [bind_ok_iff, require_ok_iff, readBytes_ok_iff, pure_eq_ok, Except.ok.injEq, exists_const] at h
    obtain ⟨h1, ⟨nb, bc⟩, h2, h3, B, ⟨h4, h5⟩, rfl⟩ := h
    obtain ⟨h6, h7, h8, h9, h10, h11⟩ := parseSegment_ok_iff.1 h2
    have hc : (BitVec.ofNat 64 bc).toNat = bc := Nat.mod_eq_of_lt h9
    subst h4
    refine .inr ⟨_, ⟨BitVec.ofNat 64 bc, B, h1, by rw [hc]; exact h7, by rw [hc]; exact h3, ?_, rfl⟩, rfl⟩
    exact imageIs_segment_iff.2 ⟨h6, h10, h5, h11⟩
  · refine .inl ⟨e, ?_, rfl⟩
    simp only [bind_error_iff, require_ok_iff, require_error_iff, pure_eq_ok, reduceCtorEq, and_false, exists_false,
      or_false, exists_const, Stop.raise.injEq] at h
    rcases h with ⟨-, rfl⟩ | ⟨-, h | ⟨⟨nb, bc⟩, -, ⟨-, rfl⟩ | ⟨-, h⟩⟩⟩
    · simp [errorsOf]
    · rcases parseSegment_error h with (h | h | h) | ⟨o, -, -, h⟩ <;> simp_all [errorsOf]
    · simp [errorsOf]
    · obtain ⟨o, -, -, -, h⟩ := readBytes_error h; cases h

theorem load_next {s t : State} (h : execLoad s = .next t) :
    (∃ e ∈ errorsOf .load, t = finish (some e) s) ∨ ∃ s', Effect .load s s' ∧ t = finish none s' := by
  replace h := conclude_next_iff.1 h
  rcases h with ⟨s', h, rfl⟩ | ⟨e, h, rfl⟩
  · simp only [bind_ok_iff, require_ok_iff, readByte_ok_iff, readBe64_ok_iff, readBytes_ok_iff, pure_eq_ok,
      Except.ok.injEq, exists_const] at h
    obtain ⟨h1, h17, mode, hm, hm1, hc, ⟨X, hX, hX1, rfl⟩, ⟨nb, bc⟩, h2, ⟨hb0, hk0⟩, h3, B, ⟨h4, h5⟩, rfl⟩ := h
    obtain ⟨h6, h7, h8, h9, h10, h11⟩ := parseSegment_ok_iff.1 h2
    have hc : (BitVec.ofNat 64 bc).toNat = bc := Nat.mod_eq_of_lt h9
    subst h4
    have hlen : s.imgLen.toNat = 25 + B.length := by omega
    have hlt := beNat_lt X
    rw [hX] at hlt
    refine .inr ⟨_, ⟨BitVec.ofNat 64 bc, BitVec.ofNat 64 (beNat X), mode, B, h1, by rw [hc]; exact h7,
      by rw [hc]; exact h3, ?_, ?_, hm1, ?_, rfl⟩, rfl⟩
    · intro h; apply hb0; rw [← hc, h]; rfl
    · intro h; apply hk0
      have := congrArg BitVec.toNat h
      rwa [BitVec.toNat_ofNat, Nat.mod_eq_of_lt (by simpa using hlt)] at this
    · refine imageIs_filter_iff.2 ⟨hlen, h10, h5, h11, ?_, ?_⟩
      · rw [be64Bytes_beNat hX, show 16 + B.length = s.imgLen.toNat - 9 by omega]; exact hX1
      · rw [show 24 + B.length = s.imgLen.toNat - 1 by omega]; exact hm
  · refine .inl ⟨e, ?_, rfl⟩
    simp only [bind_error_iff, require_ok_iff, require_error_iff, readByte_ok_iff, readByte_error_iff, pure_eq_ok,
      reduceCtorEq, and_false, exists_false, or_false, false_or, exists_const, Stop.raise.injEq] at h
    rcases h with ⟨-, rfl⟩ | ⟨-, ⟨-, rfl⟩ | ⟨-, mode, -, ⟨-, rfl⟩ | ⟨-, h | ⟨hc, -, h | ⟨⟨nb, bc⟩, -,
      ⟨-, rfl⟩ | ⟨-, ⟨-, rfl⟩ | ⟨-, h⟩⟩⟩⟩⟩⟩⟩
    · simp [errorsOf]
    · simp [errorsOf]
    · simp [errorsOf]
    · obtain ⟨o, -, -, -, h⟩ := readBe64_error h; cases h
    · rcases parseSegment_error h with (h | h | h) | ⟨o, -, -, h⟩ <;> simp_all [errorsOf]
    · simp [errorsOf]
    · simp [errorsOf]
    · obtain ⟨o, -, -, -, h⟩ := readBytes_error h; cases h

/-- What a command can do: raise one of its errors, writing the completion alone, or commit its effect. -/
theorem exec_next {i : Instr} {s t : State} (h : exec i s = .next t) :
    (∃ e ∈ errorsOf i, t = finish (some e) s) ∨ ∃ s', Effect i s s' ∧ t = finish none s' := by
  cases i
  · exact bsNew_next h
  · exact bitSet0_next h
  · exact bitSet1_next h
  · exact bitGet_next h
  · exact hash_next h
  · exact index_next h
  · exact new0_next h
  · exact new1_next h
  · exact insert_next h
  · exact lookup_next h
  · exact bsSave_next h
  · exact bsLoad_next h
  · exact save_next h
  · exact load_next h

/-! ### The other direction: a command whose effect is possible completes with it -/

theorem conclude_of_ok {s s' : State} {r : Except Stop State} (h : r = .ok s') :
    conclude s r = .next (finish none s') := by rw [h]; rfl

theorem conclude_of_raise {s : State} {e : CmdError} {r : Except Stop State} (h : r = .error (.raise e)) :
    conclude s r = .next (finish (some e) s) := by rw [h]; rfl

theorem conclude_of_fault {s : State} {f : Fault} {r : Except Stop State} (h : r = .error (.fault f)) :
    conclude s r = .fault f := by rw [h]; rfl

theorem hashOperand_of {s : State} {K : List Byte} (h : Hashable s K) : hashOperand s = .ok K :=
  hashOperand_ok_iff.2 h

/-- An effect that is possible is the one the command has. -/
theorem exec_of_effect {i : Instr} {s s' : State} (h : Effect i s s') : exec i s = .next (finish none s') := by
  cases i <;> refine conclude_of_ok ?_ <;> simp only [Effect] at h
  case bsNew =>
    simp only [bind_ok_iff, require_ok_iff, pure_eq_ok, Except.ok.injEq, exists_const]
    exact ⟨h.1, h.2.symm⟩
  case bitSet0 =>
    obtain ⟨h1, h2, m, h3, rfl⟩ := h
    simp only [assignBit, bind_ok_iff, bitOperand_ok_iff, pure_eq_ok, Except.ok.injEq]
    exact ⟨_, ⟨h1, h2, rfl⟩, m, h3, rfl⟩
  case bitSet1 =>
    obtain ⟨h1, h2, m, h3, rfl⟩ := h
    simp only [assignBit, bind_ok_iff, bitOperand_ok_iff, pure_eq_ok, Except.ok.injEq]
    exact ⟨_, ⟨h1, h2, rfl⟩, m, h3, rfl⟩
  case bitGet =>
    obtain ⟨h1, h2, h3, rfl⟩ := h
    simp only [bind_ok_iff, bitOperand_ok_iff, getBit_ok_iff, pure_eq_ok, Except.ok.injEq]
    exact ⟨_, ⟨h1, h2, rfl⟩, _, ⟨h3, rfl⟩, rfl⟩
  case hash =>
    obtain ⟨K, h1, rfl⟩ := h
    simp only [bind_ok_iff, hashOperand_ok_iff, pure_eq_ok, Except.ok.injEq]
    exact ⟨K, h1, rfl⟩
  case index =>
    obtain ⟨K, h1, rfl⟩ := h
    simp only [bind_ok_iff, hashOperand_ok_iff, pure_eq_ok, Except.ok.injEq]
    exact ⟨K, h1, rfl⟩
  case new0 =>
    obtain ⟨h1, h2, rfl⟩ := h
    simp [newFilter, require_of _ h1, require_of _ h2]
  case new1 =>
    obtain ⟨h1, h2, rfl⟩ := h
    simp [newFilter, require_of _ h1, require_of _ h2]
  case insert =>
    obtain ⟨K, h1, ⟨h2, rfl⟩ | ⟨h2, m, h3, rfl⟩⟩ := h
    · simp [hashOperand_of h1, h2]
    · simp [hashOperand_of h1, h2, h3]
  case lookup =>
    obtain ⟨K, h1, r, h2, rfl⟩ := h
    simp [hashOperand_of h1, h2]
  case bsSave =>
    obtain ⟨h1, B, h2, rfl⟩ := h
    simp only [bind_ok_iff, require_ok_iff, encodeSegment_ok_iff, pure_eq_ok, Except.ok.injEq, exists_const]
    exact ⟨h1, _, ⟨B, h2, rfl⟩, rfl⟩
  case save =>
    obtain ⟨h1, B, h2, rfl⟩ := h
    simp only [bind_ok_iff, require_ok_iff, encodeSegment_ok_iff, pure_eq_ok, Except.ok.injEq, exists_const]
    exact ⟨h1, _, ⟨B, h2, rfl⟩, rfl⟩
  case bsLoad =>
    obtain ⟨c, B, h1, h2, h3, h4, rfl⟩ := h
    obtain ⟨h5, h6, h7, h8⟩ := imageIs_segment_iff.1 h4
    have hc : BitVec.ofNat 64 c.toNat = c := by simp
    have hB : B.length < 2 ^ 64 := by have := nbytes_lt c; omega
    simp only [bind_ok_iff, require_ok_iff, readBytes_ok_iff, pure_eq_ok, Except.ok.injEq, exists_const]
    refine ⟨h1, (B.length, c.toNat), parseSegment_ok_iff.2 ⟨h5, h2, hB, c.isLt, h6, ?_⟩, h3, B, ⟨rfl, h7⟩, ?_⟩
    · rw [hc]; exact h8
    · rw [hc]
  case load =>
    obtain ⟨c, k, mode, B, h1, h2, h3, hc0, hk0, hm, h4, rfl⟩ := h
    obtain ⟨h5, h6, h7, h8, h9, h10⟩ := imageIs_filter_iff.1 h4
    have hc : BitVec.ofNat 64 c.toNat = c := by simp
    have hk : BitVec.ofNat 64 k.toNat = k := by simp
    have hB : B.length < 2 ^ 64 := by have := nbytes_lt c; omega
    have hcn : c.toNat ≠ 0 := fun h => hc0 (BitVec.eq_of_toNat_eq (by simpa using h))
    have hkn : k.toNat ≠ 0 := fun h => hk0 (BitVec.eq_of_toNat_eq (by simpa using h))
    simp only [bind_ok_iff, require_ok_iff, readByte_ok_iff, readBe64_ok_iff, readBytes_ok_iff, pure_eq_ok,
      Except.ok.injEq, exists_const]
    refine ⟨h1, by omega, mode, ?_, hm, k.toNat, ⟨be64Bytes k, rfl, ?_, (beNat_be64Bytes k).symm⟩,
      (B.length, c.toNat), parseSegment_ok_iff.2 ⟨by omega, h2, hB, c.isLt, h6, ?_⟩, ⟨hcn, hkn⟩, h3, B, ⟨rfl, h7⟩, ?_⟩
    · rw [h5, show 25 + B.length - 1 = 24 + B.length by omega]; exact h10
    · rw [h5, show 25 + B.length - 9 = 16 + B.length by omega]; exact h9
    · rw [hc]; exact h8
    · rw [hc, hk]

/-! ### Faults -/

/-- Where a command faults whenever its read of a run of image bytes does, it faults at any byte of that run without a value. -/
theorem faultsAtGap_of_read {i : Instr} {s : State} {a n : Nat}
    (h : ∀ o, readBytes .img s.img a n = .error (.fault (.unwrittenByte .img o)) →
      exec i s = .fault (.unwrittenByte .img o)) : FaultsAtGap i s a n := fun hg => by
  obtain ⟨o, h1, h2, h3, h4⟩ := readBytes_gap .img hg
  exact ⟨o, h1, h2, h3, h o h4⟩

/-- A byte of the current store without a value, as the reason of a fault. -/
def StoreFault (s : State) (f : Fault) : Prop :=
  ∃ b, ((s.bsValid = true ∧ b < nbytes s.bitCount.toNat) ∨
      (s.engValid = true ∧ (1 ≤ s.bitCount.toNat → b < nbytes s.bitCount.toNat))) ∧
    s.bitmem.read b = none ∧ f = .unwrittenByte .bitmem b

/-- Every fault of a command: a byte without a value, of the key, of the image or of the store. -/
theorem exec_fault_cases {i : Instr} {s : State} {f : Fault} (h : exec i s = .fault f) :
    (isHashing i = true ∧ ∃ o < s.keyLen.toNat, s.key.read o = none ∧ f = .unwrittenByte .key o) ∨
    ((i = .bsLoad ∨ i = .load) ∧ ∃ o < s.imgLen.toNat, s.img.read o = none ∧ f = .unwrittenByte .img o) ∨
    StoreFault s f := by
  have atBit : ∀ {x}, s.bsValid = true → x < s.bitCount.toNat → s.bitmem.read (x / 8) = none →
      f = .unwrittenByte .bitmem (x / 8) → StoreFault s f :=
    fun h1 h2 h3 h4 => ⟨_, .inl ⟨h1, div_lt_nbytes h2⟩, h3, h4⟩
  have atKey : ∀ {K : List Byte} {j}, s.engValid = true → j ∈ keyBits s K → s.bitmem.read (j / 8) = none →
      Stop.fault f = .fault (.unwrittenByte .bitmem (j / 8)) → StoreFault s f :=
    fun h1 h2 h3 h4 => ⟨_, .inr ⟨h1, fun hm => div_lt_nbytes (candidates_lt hm h2)⟩, h3, by simpa using h4⟩
  have key : hashOperand s = .error (.fault f) →
      ∃ o < s.keyLen.toNat, s.key.read o = none ∧ f = .unwrittenByte .key o := fun h => by
    rcases hashOperand_error h with ⟨-, h⟩ | ⟨-, -, h⟩ | ⟨-, -, o, h1, h2, h3⟩
    · cases h
    · cases h
    · exact ⟨o, h1, h2, by simpa using h3⟩
  cases i <;> replace h := conclude_fault_iff.1 h
  case bsNew => simp [bind_error_iff] at h
  case bitSet0 =>
    rcases assignBit_error h with ⟨-, h⟩ | ⟨-, -, h⟩ | ⟨h1, h2, h3, h4⟩
    · cases h
    · cases h
    · exact .inr (.inr (atBit h1 h2 h3 (by simpa using h4)))
  case bitSet1 =>
    rcases assignBit_error h with ⟨-, h⟩ | ⟨-, -, h⟩ | ⟨h1, h2, h3, h4⟩
    · cases h
    · cases h
    · exact .inr (.inr (atBit h1 h2 h3 (by simpa using h4)))
  case bitGet =>
    simp only [bind_error_iff, bitOperand_ok_iff, bitOperand_error_iff, pure_eq_ok, reduceCtorEq, and_false,
      exists_false, or_false, false_or] at h
    obtain ⟨_, ⟨h1, h2, rfl⟩, h⟩ := h
    exact .inr (.inr (atBit h1 h2 (getBit_error h).1 (by simpa using (getBit_error h).2)))
  case hash =>
    simp only [bind_error_iff, pure_eq_ok, reduceCtorEq, and_false, exists_false, or_false] at h
    exact .inl ⟨rfl, key h⟩
  case index =>
    simp only [bind_error_iff, pure_eq_ok, reduceCtorEq, and_false, exists_false, or_false] at h
    exact .inl ⟨rfl, key h⟩
  case new0 => rcases newFilter_error_iff.1 h with ⟨-, h⟩ | ⟨-, -, h⟩ <;> cases h
  case new1 => rcases newFilter_error_iff.1 h with ⟨-, h⟩ | ⟨-, -, h⟩ <;> cases h
  case insert =>
    simp only [bind_error_iff] at h
    rcases h with h | ⟨K, hK, h | ⟨r, -, h⟩⟩
    · exact .inl ⟨rfl, key h⟩
    · obtain ⟨j, h1, h2, h3⟩ := allSet_error h
      exact .inr (.inr (atKey (hashOperand_ok_iff.1 hK).1 h1 h2 h3))
    · cases r
      · simp only [Bool.false_eq_true, if_false, bind_error_iff, pure_eq_ok, reduceCtorEq, and_false, exists_false,
          or_false] at h
        obtain ⟨j, h1, h2, h3⟩ := setAll_error h
        exact .inr (.inr (atKey (hashOperand_ok_iff.1 hK).1 h1 h2 h3))
      · simp at h
  case lookup =>
    simp only [bind_error_iff, pure_eq_ok, reduceCtorEq, and_false, exists_false, or_false] at h
    rcases h with h | ⟨K, hK, h⟩
    · exact .inl ⟨rfl, key h⟩
    · obtain ⟨j, h1, h2, h3⟩ := allSet_error h
      exact .inr (.inr (atKey (hashOperand_ok_iff.1 hK).1 h1 h2 h3))
  case bsSave =>
    simp only [bind_error_iff, require_ok_iff, require_error_iff, pure_eq_ok, reduceCtorEq, and_false, exists_false,
      or_false, false_or, exists_const] at h
    obtain ⟨h1, h⟩ := h
    obtain ⟨o, h2, h3, h4⟩ := encodeSegment_error h
    exact .inr (.inr ⟨o, .inl ⟨h1, h2⟩, h3, by simpa using h4⟩)
  case save =>
    simp only [bind_error_iff, require_ok_iff, require_error_iff, pure_eq_ok, reduceCtorEq, and_false, exists_false,
      or_false, false_or, exists_const] at h
    obtain ⟨h1, h⟩ := h
    obtain ⟨o, h2, h3, h4⟩ := encodeSegment_error h
    exact .inr (.inr ⟨o, .inr ⟨h1, fun _ => h2⟩, h3, by simpa using h4⟩)
  case bsLoad =>
    simp only [bind_error_iff, require_ok_iff, require_error_iff, pure_eq_ok, reduceCtorEq, and_false, exists_false,
      or_false, false_or, exists_const] at h
    refine .inr (.inl ⟨.inl rfl, ?_⟩)
    obtain ⟨-, h | ⟨⟨nb, bc⟩, h1, -, h⟩⟩ := h
    · rcases parseSegment_error h with (h | h | h) | ⟨o, h1, h2, h3⟩
      · cases h
      · cases h
      · cases h
      · exact ⟨o, h1, h2, by simpa using h3⟩
    · obtain ⟨o, h2, h3, h4, h5⟩ := readBytes_error h
      have := (parseSegment_ok_iff.1 h1).1
      exact ⟨o, by omega, h4, by simpa using h5⟩
  case load =>
    simp only [bind_error_iff, require_ok_iff, require_error_iff, readByte_ok_iff, readByte_error_iff, pure_eq_ok,
      reduceCtorEq, and_false, exists_false, or_false, false_or, exists_const, Stop.fault.injEq] at h
    refine .inr (.inl ⟨.inr rfl, ?_⟩)
    obtain ⟨-, h17, ⟨h1, rfl⟩ | ⟨mode, -, -, h | ⟨hc, -, h | ⟨⟨nb, bc⟩, h1, -, -, h⟩⟩⟩⟩ := h
    · exact ⟨_, by omega, h1, rfl⟩
    · obtain ⟨o, h2, h3, h4, h5⟩ := readBe64_error h
      exact ⟨o, by omega, h4, by simpa using h5⟩
    · rcases parseSegment_error h with (h | h | h) | ⟨o, h1, h2, h3⟩
      · cases h
      · cases h
      · cases h
      · exact ⟨o, by omega, h2, by simpa using h3⟩
    · obtain ⟨o, h2, h3, h4, h5⟩ := readBytes_error h
      have := (parseSegment_ok_iff.1 h1).1
      exact ⟨o, by omega, h4, by simpa using h5⟩

theorem exec_not_refused {i : Instr} {s : State} {r : Refusal} : exec i s ≠ .refused r := by
  cases i <;> exact conclude_not_refused

end Sys2Proof.Machine
end

