-- ==== Sys2Proof/Laws/PerInstr.lean ====
section
/-! SUPPORT. A law stated per instruction: the fields of every instruction's word are those of a legal command (30_encoding.md R94, R95). -/

namespace Sys2Proof.Laws.EncodedFields

/-- The word of an instruction is well formed, and only BIT_SET and NEW carry a nonzero F. -/
def Statement (i : Instr) : Prop :=
  i.wellFormed = true ∧ (fieldsOf (encode i)).rsv = 0 ∧
    ((fieldsOf (encode i)).f ≠ 0 → (fieldsOf (encode i)).f = 1 ∧
      ((fieldsOf (encode i)).opc = 0x11 ∨ (fieldsOf (encode i)).opc = 0x30))

theorem bsNew : Statement .bsNew := by unfold Statement; decide
theorem bitSet0 : Statement .bitSet0 := by unfold Statement; decide
theorem bitSet1 : Statement .bitSet1 := by unfold Statement; decide
theorem bitGet : Statement .bitGet := by unfold Statement; decide
theorem hash : Statement .hash := by unfold Statement; decide
theorem index : Statement .index := by unfold Statement; decide
theorem new0 : Statement .new0 := by unfold Statement; decide
theorem new1 : Statement .new1 := by unfold Statement; decide
theorem insert : Statement .insert := by unfold Statement; decide
theorem lookup : Statement .lookup := by unfold Statement; decide
theorem bsSave : Statement .bsSave := by unfold Statement; decide
theorem bsLoad : Statement .bsLoad := by unfold Statement; decide
theorem save : Statement .save := by unfold Statement; decide
theorem load : Statement .load := by unfold Statement; decide

end Sys2Proof.Laws.EncodedFields
end

