-- ==== Sys2Proof/Tests/Slice0.lean ====
section
/-! SUPPORT. The model's own tests. Expected values come from 95_test_vectors.md (its section stands at each test), with its
parameters MAX_BITS = 1024 and MAX_KEY_BYTES = 64. After them, one witness for every statement that has hypotheses. -/

namespace Sys2Proof.Tests

open Sys2Proof Sys2Proof.Machine

/-! ### WellFormed: each of the three checks refuses an ill-formed command (30_encoding.md R95) -/

theorem test_wf_reserved : ({ opc := 0x10, f := 0, rsv := 1 } : CommandFields).wellFormed = false ∧
    ({ opc := 0x10, f := 0, rsv := 1 } : CommandFields).rsvClear = false := by decide

theorem test_wf_opcode : ({ opc := 0x13, f := 0, rsv := 0 } : CommandFields).wellFormed = false ∧
    ({ opc := 0x13, f := 0, rsv := 0 } : CommandFields).opcLegal = false := by decide

theorem test_wf_f : ({ opc := 0x11, f := 2, rsv := 0 } : CommandFields).wellFormed = false ∧
    ({ opc := 0x11, f := 2, rsv := 0 } : CommandFields).fLegal = false ∧
    ({ opc := 0x12, f := 1, rsv := 0 } : CommandFields).fLegal = false ∧
    ({ opc := 0x30, f := 1, rsv := 0 } : CommandFields).wellFormed = true := by decide

/-! ### Decode: every word, put together from the fields of 30_encoding.md R91 -/

/-- A command word from its three fields. -/
def word (rsv : BitVec 48) (f opc : BitVec 8) : Word := rsv ++ f ++ opc

/-- What the decoder answers, as data that can be compared. -/
def decoded (w : Word) : Option Instr × Option IllegalCommand :=
  match decode w with
  | .ok i => (some i, none)
  | .error e => (none, some e)

theorem test_decode_bitstore :
    [word 0 0 0x10, word 0 0 0x11, word 0 1 0x11, word 0 0 0x12].map decoded =
      [(some .bsNew, none), (some .bitSet0, none), (some .bitSet1, none), (some .bitGet, none)] := by decide

theorem test_decode_hash :
    [word 0 0 0x20, word 0 0 0x21].map decoded = [(some .hash, none), (some .index, none)] := by decide

theorem test_decode_engine :
    [word 0 0 0x30, word 0 1 0x30, word 0 0 0x31, word 0 0 0x32].map decoded =
      [(some .new0, none), (some .new1, none), (some .insert, none), (some .lookup, none)] := by decide

theorem test_decode_codec :
    [word 0 0 0x40, word 0 0 0x41, word 0 0 0x42, word 0 0 0x43].map decoded =
      [(some .bsSave, none), (some .bsLoad, none), (some .save, none), (some .load, none)] := by decide

/-- 95_test_vectors.md 2.5: illegal words and their details. -/
theorem test_decode_illegal :
    [0x00, 0xff, 0x13, 0x10000, 0x10010, 0x100000000, 0x8000000000000010, 0x1ff, 0x211, 0x230, 0x112, 0x120, 0x131].map
        (fun w => (decoded w).2) =
      [some .reservedOpcode, some .reservedOpcode, some .reservedOpcode, some .reservedBits, some .reservedBits,
        some .reservedBits, some .reservedBits, some .reservedOpcode, some .illegalF, some .illegalF, some .illegalF,
        some .illegalF, some .illegalF] := by decide

/-! ### Small states -/

/-- A block of the test vectors' parameters, after reset. -/
def s0 : State := State.resetWith 1024 64

/-- Consecutive cells from offset 0. -/
def cells (bs : List Byte) : Memory := Memory.writeBytes [] 0 bs

/-- A 10-bit store of the given bytes. -/
def store10 (bs : List Byte) : State := { s0 with bsValid := true, bitCount := 10, bitmem := cells bs }

/-- The filter NEW 0 makes of capacity 2, with the given bytes and the given key. -/
def filter2 (bs key : List Byte) : State :=
  { s0 with bsValid := true, engValid := true, bitCount := 20, hashCount := 7, bitmem := cells bs,
            key := cells key, keyLen := BitVec.ofNat 64 key.length }

/-- An image in IMG. -/
def withImage (im : List Byte) : State := { s0 with img := cells im, imgLen := BitVec.ofNat 64 im.length }

/-- A fact of the state a step answers. -/
def got {α : Type} (o : Host.Outcome State Fault Refusal) (f : State → α) : Option α :=
  match o with
  | .next t => some (f t)
  | .fault _ => none
  | .refused _ => none

/-- The fault a step answers. -/
def faultOf (o : Host.Outcome State Fault Refusal) : Option Fault :=
  match o with
  | .next _ => none
  | .fault f => some f
  | .refused _ => none

/-- "test", "test1", "ab", "a". -/
def kTest : List Byte := [0x74, 0x65, 0x73, 0x74]
def kTest1 : List Byte := [0x74, 0x65, 0x73, 0x74, 0x31]
def kAb : List Byte := [0x61, 0x62]
def kA : List Byte := [0x61]

/-- The images of 95_test_vectors.md 2.4, encoding rows 1 and 3, loads row 15. -/
def imgB : List Byte := [0, 0, 0, 0, 0, 0, 0, 2, 0x04, 0x40, 0, 0, 0, 0, 0, 0, 0, 0x0a]
def imgC : List Byte :=
  [0, 0, 0, 0, 0, 0, 0, 3, 0x84, 0x21, 0x00, 0, 0, 0, 0, 0, 0, 0, 0x14, 0, 0, 0, 0, 0, 0, 0, 7, 0]
def img15 : List Byte :=
  [0, 0, 0, 0, 0, 0, 0, 1, 0xff, 0, 0, 0, 0, 0, 0, 0, 1, 0, 0, 0, 0, 0, 0, 0, 7, 1]

/-! ### Commands after reset: 95_test_vectors.md 2.5, through the whole step -/

theorem test_step_after_reset :
    [0x10, 0x11, 0x111, 0x12, 0x20, 0x21, 0x30, 0x130, 0x31, 0x32, 0x40, 0x41, 0x42, 0x43, 0x13, 0x10010, 0x211].map
        (fun w => got (step (State.reset.withFetchWord 64 w)) statusWord) =
      [0x2, 0x10606, 0x10606, 0x10606, 0x20606, 0x20606, 0x10406, 0x10406, 0x20606, 0x20606, 0x10606, 0x20206, 0x20606,
        0x10206, 0x20506, 0x10506, 0x30506].map some := by decide

/-! ### BitStore: 95_test_vectors.md 2.1 -/

/-- Row 2. -/
theorem test_bsNew : got (exec .bsNew { s0 with arg0 := 10 }) (fun t => (statusWord t, t.bitCount, t.bitmem, configWord t)) =
    some (0x2, 10, [(0, 0), (1, 0)], 0x1) := by decide

/-- Row 13. -/
theorem test_bsNew_capacity : got (exec .bsNew { s0 with arg0 := 1025 }) (fun t => (statusWord t, t.bitCount, t.bsValid)) =
    some (0x10806, 0, false) := by decide

/-- Row 9. -/
theorem test_bitSet0 : got (exec .bitSet0 { store10 [0x04, 0x40] with arg0 := 5 }) (fun t => (statusWord t, t.bitmem)) =
    some (0x2, [(0, 0x00), (1, 0x40)]) := by decide

/-- Row 3, its second BIT_SET. -/
theorem test_bitSet1 : got (exec .bitSet1 { store10 [0x04, 0x00] with arg0 := 9 }) (fun t => (statusWord t, t.bitmem)) =
    some (0x2, [(0, 0x04), (1, 0x40)]) := by decide

/-- Row 6. -/
theorem test_bitSet1_bounds : got (exec .bitSet1 { store10 [0x04, 0x40] with arg0 := 10 })
    (fun t => (statusWord t, t.errLimit, t.bitmem)) = some (0x106, 10, [(0, 0x04), (1, 0x40)]) := by decide

/-- Rows 4 and 5. -/
theorem test_bitGet : [9, 4].map (fun i => got (exec .bitGet { store10 [0x04, 0x40] with arg0 := i }) State.result) =
    [some 1, some 0] := by decide

/-- Rows 7 and 8: RESULT keeps its value, and the index does not wrap. -/
theorem test_bitGet_bounds : [10, 0xffffffffffffffff].map (fun i =>
    got (exec .bitGet { store10 [0x04, 0x40] with arg0 := i, result := 7 })
      (fun t => (statusWord t, t.errLimit, t.result))) =
    [some (0x106, 10, 7), some (0x106, 10, 7)] := by decide

/-! ### Hash scheme: 95_test_vectors.md 2.2 -/

theorem test_murmur3_table :
    [[], kA, kAb, [0x61, 0x62, 0x63], [0x61, 0x62, 0x63, 0x64], [0x61, 0x62, 0x63, 0x64, 0x65], kTest, kTest1,
      [0xff, 0xff, 0xff, 0xff]].map (fun K => murmur3 K murmurSeed) =
    [0x556105b7, 0xa5496397, 0xc407446a, 0x7e1a450f, 0xee88c069, 0x826662a1, 0xf7d9dd2d, 0x1b96ad3c, 0x39c5efbe] := by
  decide

/-- The reference values at other seeds. -/
theorem test_murmur3_reference :
    murmur3 [] 0 = 0 ∧ murmur3 [] 1 = 0x514e28b7 ∧ murmur3 [] 0xffffffff = 0x81f16f39 ∧
    murmur3 [0, 0, 0, 0] 0 = 0x2362f9de ∧ murmur3 [0x61, 0x61, 0x61, 0x61] 0x9747b28c = 0x5a97808a := by decide

theorem test_fnv1a_table : [[], kA, kAb, kTest, kTest1].map fnv1a =
    [0x811c9dc5, 0xe40c292c, 0x4d2505ca, 0xafd071e5, 0x992330bc] := by decide

theorem test_indices :
    (List.range 7).map (indexOf kAb 20) = [2, 8, 14, 0, 6, 12, 18] ∧
    (List.range 7).map (indexOf kA 20) = [3, 3, 3, 3, 3, 3, 3] ∧
    (List.range 7).map (indexOf kTest1 29) = [5, 2, 28, 25, 22, 19, 16] := by decide

/-- Commands row 1. -/
theorem test_hash : got (exec .hash { filter2 [0, 0, 0] kAb with result := 9 })
    (fun t => (statusWord t, t.mur, t.fnv, t.h1, t.h2, t.result)) =
    some (0x2, 0xc407446a, 0x4d2505ca, 2, 6, 9) := by decide

/-- Row 5. -/
theorem test_hash_key_too_long : got (exec .hash { filter2 [0, 0, 0] kAb with keyLen := 65 })
    (fun t => (statusWord t, t.mur)) = some (0x10706, 0) := by decide

/-- Rows 2, 3 and 4. -/
theorem test_index : [3, 7, 0xffffffffffffffff].map (fun j =>
    got (exec .index { filter2 [0, 0, 0] kAb with arg0 := j }) State.result) = [some 0, some 4, some 12] := by decide

/-! ### Filter engine: 95_test_vectors.md 2.3 -/

theorem test_sizing :
    [1, 2, 3, 4, 5, 6, 7, 8, 9, 10, 20, 100, 106, 107, 1000, 1000000, 28785641, 28785642, 4294967295].map sizedBits =
    [10, 20, 29, 39, 48, 58, 68, 77, 87, 96, 192, 959, 1017, 1026, 9586, 9585059, 275912050, 275912060, 41167512252] := by
  decide

/-- Row 3. -/
theorem test_new0 : got (exec .new0 { s0 with arg0 := 106 }) (fun t => (statusWord t, t.bitCount, t.hashCount, configWord t)) =
    some (0x2, 1017, 7, 0x3) := by decide

/-- Rows 1, 2 and 4. -/
theorem test_new0_rejects : [0, 107, 0xffffffffffffffff].map (fun n =>
    got (exec .new0 { s0 with arg0 := n }) statusWord) = [some 0x10406, some 0x10806, some 0x10806] := by decide

/-- Row 5. -/
theorem test_new1 : got (exec .new1 { s0 with arg0 := 2 }) (fun t => (t.bitCount, configWord t, t.bitmem)) =
    some (20, 0x103, [(0, 0), (1, 0), (2, 0)]) := by decide

/-- Rows 7 and 8. -/
theorem test_insert :
    got (exec .insert (filter2 [0, 0, 0] kTest)) (fun t => (t.result, t.bitmem, t.mur, t.h1, t.h2)) =
      some (1, [(0, 0x84), (1, 0x21), (2, 0x00)], 0xf7d9dd2d, 5, 5) ∧
    got (exec .insert (filter2 [0x84, 0x21, 0x00] kTest)) (fun t => (t.result, t.bitmem)) =
      some (0, [(0, 0x84), (1, 0x21), (2, 0x00)]) := by decide

/-- Row 13: m = 3 and k = 2^64 - 1. -/
theorem test_insert_many_hashes :
    got (exec .insert { filter2 [0] kA with bitCount := 3, hashCount := 0xffffffffffffffff })
      (fun t => (t.result, t.bitmem, t.h1, t.h2)) = some (1, [(0, 0xe0)], 2, 1) := by decide

/-- Rows 9 and 10. -/
theorem test_lookup : [kTest, kTest1].map (fun K =>
    got (exec .lookup (filter2 [0x84, 0x21, 0x00] K)) (fun t => (statusWord t, t.result))) =
    [some (0x2, 1), some (0x2, 0)] := by decide

/-- 2.2 commands row 10: a key byte that nothing has written. -/
theorem test_lookup_faults : faultOf (exec .lookup { filter2 [0, 0, 0] [] with keyLen := 1 }) =
    some (.unwrittenByte .key 0) := by decide

/-! ### Image codec: 95_test_vectors.md 2.4 -/

/-- Encodings row 1. -/
theorem test_bsSave : got (exec .bsSave (store10 [0x04, 0x40])) (fun t => (t.imgLen, t.img)) = some (18, cells imgB) := by
  decide

/-- Encodings row 3. -/
theorem test_save : got (exec .save (filter2 [0x84, 0x21, 0x00] [])) (fun t => (t.imgLen, t.img)) =
    some (28, cells imgC) := by decide

/-- Loads row 1. -/
theorem test_bsLoad : got (exec .bsLoad (withImage imgB)) (fun t => (statusWord t, t.bitCount, t.bitmem, configWord t)) =
    some (0x2, 10, [(0, 0x04), (1, 0x40)], 0x1) := by decide

/-- Loads rows 3, 4, 6, 7 and 8. -/
theorem test_bsLoad_rejects :
    [List.replicate 7 0, List.replicate 15 0, [0, 0, 0, 0, 0, 0, 0, 2, 0, 0, 0, 0, 0, 0, 0, 0, 0, 0x11],
      [0, 0, 0, 0, 0, 0, 0, 1, 0, 0, 0, 0, 0, 0, 0, 0, 8, 0], List.replicate 8 0xff ++ List.replicate 8 0].map
        (fun im => got (exec .bsLoad (withImage im)) (fun t => (statusWord t, t.bsValid))) =
    [some (0x20206, false), some (0x20206, false), some (0x30206, false), some (0x40206, false),
      some (0x20206, false)] := by decide

/-- Loads rows 15 and 22. -/
theorem test_load :
    got (exec .load (withImage img15)) (fun t => (t.bitCount, t.bitmem, t.hashCount, configWord t)) =
      some (1, [(0, 0xff)], 7, 0x103) ∧
    got (exec .load (withImage imgC)) (fun t => (t.bitCount, t.bitmem, t.hashCount, configWord t)) =
      some (20, [(0, 0x84), (1, 0x21), (2, 0x00)], 7, 0x3) := by decide

/-- Loads rows 11 to 14 and 17, and row 23. -/
theorem test_load_rejects :
    [List.replicate 16 0, List.replicate 17 0, List.replicate 23 0 ++ [0], List.replicate 23 0 ++ [7, 0],
      [0, 0, 0, 0, 0, 0, 0, 1, 0x80, 0, 0, 0, 0, 0, 0, 0, 1, 0, 0, 0, 0, 0, 0, 0, 7, 2]].map
        (fun im => got (exec .load (withImage im)) statusWord) =
      [some 0x10206, some 0x20206, some 0x20206, some 0x60206, some 0x50206] ∧
    faultOf (exec .load { s0 with imgLen := 26 }) = some (.unwrittenByte .img 25) := by decide

/-! ### Host transactions: 95_test_vectors.md 2.6 -/

/-- A block with BS_NEW of ARG0 = 10 accepted and not yet executed (row 4). -/
def busy10 : State := hostTxn (.regWrite 0x04 0x10) (hostTxn (.regWrite 0x06 10) s0)

theorem test_host_accepts : (statusWord busy10, busy10.cmd, busy10.response) = (0x1, 0x10, some .ok) := by decide

/-- Rows 5 to 8. -/
theorem test_host_while_busy :
    let t := hostTxn (.regWrite 0x04 0x12) (hostTxn (.bufWrite .key 0 1) (hostTxn (.regWrite 0x06 99) busy10))
    (statusWord t, t.arg0, t.cmd, t.bitCount, t.key) = (0x9, 10, 0x10, 0, []) ∧
    got (engineTurn t) (fun u => (statusWord u, u.bitCount, statusWord (hostTxn (.regWrite 0x05 0xfffffffffffffff7) u),
      statusWord (hostTxn (.regWrite 0x05 0x8) u))) = some (0xa, 10, 0xa, 0x2) := by decide

/-- Rows 1, 2, 3 and 9. -/
theorem test_host_responses :
    [Txn.regWrite 0x00 5, .regRead 0x12, .bufWrite .img 153 0, .bufWrite .key 64 0, .regRead 0x00, .regRead 0x01,
      .regRead 0x02, .regRead 0x03, .bufWrite .key 63 0].map (fun t => (hostTxn t s0).response) =
    [.error, .error, .error, .error, .okWord 0x42464531, .okWord 1024, .okWord 64, .okWord 153, .ok].map some := by decide

/-- A read of a byte that nothing has written takes one draw (10_state.md R44); a reset discards the command (R271). -/
theorem test_host_draw_and_reset :
    (hostTxn (.bufRead .img 152) s0).draws = 1 ∧ (resetEvent busy10).pending = none ∧
    statusWord (resetEvent busy10) = 0 ∧ (resetEvent busy10).arg0 = 0 := by decide

/-! ### Assembler: 30_encoding.md R97, R99 -/

theorem test_assembler :
    [assembleCommand .BIT_SET (some 1), assembleCommand .NEW (some 0), assembleCommand .LOOKUP none,
      assembleCommand .NEW none, assembleCommand .HASH (some 0), assembleCommand .NEW (some 2)] =
      [some 0x111, some 0x30, some 0x32, none, none, none] ∧
    expand (.key "ab") = some [.host (.bufWrite .key 0 0x61), .host (.bufWrite .key 1 0x62), .host (.regWrite 0x07 2)] ∧
    expand (.key "") = some [.host (.regWrite 0x07 0)] := by decide

/-! ### Witnesses: a state and operands that meet the hypotheses of each statement -/

theorem rules_s0 : Rules39 s0 := by constructor <;> decide

theorem rules_store10 : Rules39 (store10 [0x04, 0x40]) := by constructor <;> decide

theorem rules_filter2 : Rules39 (filter2 [0x84, 0x21, 0x00] kTest1) := by constructor <;> decide

theorem rules_fresh : Rules39 (filter2 [0, 0, 0] kTest) := by constructor <;> decide

theorem rules_busy10 : Rules39 busy10 := by constructor <;> decide

theorem kept_filter2 : WellKept (filter2 [0x84, 0x21, 0x00] kTest1) :=
  ⟨by decide, by decide, by decide, by decide, by unfold Inside; decide, by unfold Inside; decide, by unfold Inside; decide,
    fun w h => (by cases h), by decide, by decide, by decide, by decide, by decide⟩

theorem kept_busy10 : WellKept busy10 :=
  ⟨by decide, by decide, by decide, by decide, by unfold Inside; decide, by unfold Inside; decide, by unfold Inside; decide,
    fun w h => (by cases h; rfl), by decide, by decide, by decide, by decide, by decide⟩

theorem kept_store10 : WellKept (store10 [0x04, 0x40]) :=
  ⟨by decide, by decide, by decide, by decide, by unfold Inside; decide, by unfold Inside; decide, by unfold Inside; decide,
    fun w h => (by cases h), by decide, by decide, by decide, by decide, by decide⟩

theorem hashable_filter2 : Hashable (filter2 [0x84, 0x21, 0x00] kTest1) kTest1 :=
  ⟨by decide, by decide, by decide, by unfold Holds; decide⟩

theorem hashable_fresh : Hashable (filter2 [0, 0, 0] kTest) kTest :=
  ⟨by decide, by decide, by decide, by unfold Holds; decide⟩

/-- DecodeRejectsInOrder: a word of each outcome, and a state that holds it. -/
theorem witness_DecodeRejectsInOrder :
    (decoded 0x10).1 = some .bsNew ∧ (decoded 0x10010).2 = some .reservedBits ∧
    (decoded 0x44).2 = some .reservedOpcode ∧ (decoded 0x211).2 = some .illegalF ∧ busy10.pending = some 0x10 ∧
    (hostTxn (.regWrite 0x04 0x211) s0).pending = some 0x211 := by decide

/-- EveryOtherWordCompletesAsIllegal. -/
theorem witness_EveryOtherWordCompletesAsIllegal :
    (hostTxn (.regWrite 0x04 0x44) s0).pending = some 0x44 ∧ ∀ i, (0x44 : Word) ≠ encode i :=
  ⟨by decide, fun i => by cases i <;> decide⟩

/-- AssemblerMakesExactlyTheLegalWords: an accepted mnemonic, one that takes no operand, and an operand just above the legal ones. -/
theorem witness_AssemblerMakesExactlyTheLegalWords :
    assembleCommand .NEW (some 1) = some 0x130 ∧ Opcode.HASH ≠ .BIT_SET ∧ Opcode.HASH ≠ .NEW ∧ 1 < 2 := by decide

/-- StepRunsTheDecodedCommand: with the schedule over, and with the engine's turn next. -/
theorem witness_StepRunsTheDecodedCommand :
    busy10.busy = true ∧ busy10.pending = some 0x10 ∧ (decoded 0x10).1 = some .bsNew ∧ busy10.schedule = [] ∧
    (s0.withFetchWord 64 0x10).schedule = [.engine] := by decide

/-- StepTakesTheOtherTurns: one schedule for each clause. -/
theorem witness_StepTakesTheOtherTurns :
    ({ s0 with schedule := [.host (.regRead 0)] }).schedule = [.host (.regRead 0)] ∧
    ({ s0 with schedule := [.reset] }).schedule = [.reset] ∧
    ({ s0 with schedule := [.engine] }).schedule = [.engine] ∧ s0.busy = false ∧ s0.schedule = [] := by decide

/-- EndedProgramKeepsItsResult: with an idle engine turn left, and with none. -/
theorem witness_EndedProgramKeepsItsResult :
    (ProgramEnded { s0 with schedule := [.engine] } ∧ Turn.reset ∉ [Turn.engine]) ∧ ProgramEnded s0 ∧
    Turn.reset ∉ s0.schedule :=
  ⟨⟨⟨fun t => by simp, rfl⟩, by decide⟩, ⟨fun t => by simp [s0, State.resetWith], rfl⟩, by decide⟩

/-- PendingCommandIsEventuallyExecuted. -/
theorem witness_PendingCommandIsEventuallyExecuted : Inv busy10 ∧ busy10.busy = true :=
  ⟨⟨rules_busy10, kept_busy10⟩, by decide⟩

/-- CommandsFaultOnlyOnUnwrittenOperandBytes: a key byte, and an image byte. -/
theorem witness_CommandsFaultOnlyOnUnwrittenOperandBytes :
    (Rules39 { filter2 [0, 0, 0] [] with keyLen := 1 } ∧
      exec .hash { filter2 [0, 0, 0] [] with keyLen := 1 } = .fault (.unwrittenByte .key 0)) ∧
    (Rules39 { s0 with imgLen := 26 } ∧ exec .load { s0 with imgLen := 26 } = .fault (.unwrittenByte .img 25)) :=
  ⟨⟨by constructor <;> decide, rfl⟩, by constructor <;> decide, rfl⟩

/-- CompletionWritesStatus: the first and the last row of its table. -/
theorem witness_CompletionWritesStatus :
    (errorCode .bounds, errorDetail .bounds, errorCode .capacityLoad, errorDetail .capacityLoad) = (1, 0, 8, 2) := by
  decide

/-- EveryCompletionReportsLegally, CommandRunsOnItsAcceptedOperands, CommandsNeverWriteHostOperands, OnlyTheListedCommandsWriteEachRegister,
FailedCommandChangesNothingElse, FailedCommandFailsAlikeAgain: a command that completes, of each list and outside it, and one that completes with an error. -/
theorem witness_completions :
    (∃ t, exec .bsNew { s0 with arg0 := 10 } = .next t) ∧
    (∃ t, exec .bitGet (store10 [0x04, 0x40]) = .next t) ∧
    (∃ t, exec .hash (filter2 [0x84, 0x21, 0x00] kTest1) = .next t ∧ Instr.hash ∉ [Instr.bsSave, .save]) ∧
    (∃ t, exec .bsSave (store10 [0x04, 0x40]) = .next t) ∧
    (∃ t, exec .bitGet s0 = .next t ∧ t.err = true) ∧
    (∃ t, engineStep busy10 = .next t) ∧
    ∃ t, engineStep (hostTxn (.regWrite 0x04 0x44) s0) = .next t ∧ t.err = true :=
  ⟨⟨_, rfl⟩, ⟨_, rfl⟩, ⟨_, rfl, by decide⟩, ⟨_, rfl⟩, ⟨_, rfl, rfl⟩, ⟨_, rfl⟩, _, rfl, rfl⟩

/-- ResetLeavesTheStatedValues. -/
theorem witness_ResetLeavesTheStatedValues : ∃ s t : State, t = resetEvent s ∧ s.busy = true := ⟨busy10, _, rfl, by decide⟩

/-- StepKeepsTheInvariantsOfR39, StepKeepsBuffersAndStatusLegal: a step that runs a command. -/
theorem witness_StepKeepsTheInvariants : Inv busy10 ∧ ∃ t, step busy10 = .next t :=
  ⟨⟨rules_busy10, kept_busy10⟩, _, rfl⟩

/-- StatusFieldsStandWhereR29Says, ConfigFieldsStandWhereR31Says: the last position. -/
theorem witness_bit_position : 63 < 64 := by decide

/-- RegisterReadsAnswerTheRegisterMap: the last assigned register and the first unassigned number. -/
theorem witness_RegisterReadsAnswerTheRegisterMap : 17 < 18 ∧ 18 ≤ 18 ∧ (hostTxn (.regRead 17) s0).response = some (.okWord 0) ∧
    (hostTxn (.regRead 18) s0).response = some .error := by decide

/-- RegisterWritesFollowTheAccessKinds, CommandWordIsAcceptedOrDropped, HostChangesNothingWhileBusy: an idle and a busy block. -/
theorem witness_idle_and_busy : s0.busy = false ∧ busy10.busy = true ∧ 0x06 ∈ [0x06, 0x07, 0x08] := by decide

/-- BufferReadsAnswerTheByteOrADraw, BufferWritesStoreOneByte: at the last offset and at the size, a byte with a value and one without. -/
theorem witness_buffers :
    s0.maxKeyR.toNat ≤ 64 ∧ 63 < s0.maxKeyR.toNat ∧ s0.key.read 63 = none ∧ s0.busy = false ∧
    (filter2 [0, 0, 0] kTest).key.read 0 = some 0x74 ∧ 25 + (s0.maxBitsR.toNat + 7) / 8 ≤ 153 ∧
    152 < 25 + (s0.maxBitsR.toNat + 7) / 8 ∧ s0.img.read 152 = none ∧ (withImage imgB).img.read 7 = some 2 ∧
    busy10.busy = true ∧ 63 < busy10.maxKeyR.toNat := by decide

/-- DoStatementRunsItsCommand: a block that is not busy, with the turns of `do BS_SAVE` and one poll. -/
theorem witness_DoStatementRunsItsCommand :
    ∃ (s : State) (ts rest : List Turn) (w : Word), Inv s ∧ s.busy = false ∧ assembleCommand .BS_SAVE none = some w ∧
      expand (.doCmd .BS_SAVE none 1) = some ts ∧ s.schedule = ts ++ rest :=
  ⟨{ store10 [0x04, 0x40] with schedule := wrTurn .CMD 0x40 :: waitTurns 1 }, _, [], _,
    ⟨by constructor <;> decide,
      ⟨by decide, by decide, by decide, by decide, by unfold Inside; decide, by unfold Inside; decide, by unfold Inside; decide,
        fun w h => (by cases h), by decide, by decide, by decide, by decide, by decide⟩⟩, by decide, rfl, rfl, by decide⟩

/-- BsNewMakesAZeroFilledStore: at MAX_BITS and just above. -/
theorem witness_BsNewMakesAZeroFilledStore : ((1024 : Word)).toNat ≤ maxBits s0 ∧ maxBits s0 < ((1025 : Word)).toNat := by
  decide

/-- BitSetAssignsOneBit, BitGetReadsOneBit, OnlyBitAccessorsRaiseBounds: no store, the last legal index, the first illegal one. -/
theorem witness_bit_operands :
    s0.bsValid = false ∧ Rules39 { store10 [0x04, 0x40] with arg0 := 9 } ∧ (store10 [0x04, 0x40]).bsValid = true ∧
    ((9 : Word)).toNat < (store10 [0x04, 0x40]).bitCount.toNat ∧ (store10 [0x04, 0x40]).bitCount.toNat ≤ ((10 : Word)).toNat ∧
    ∃ t, exec .bitGet { store10 [0x04, 0x40] with arg0 := 10 } = .next t ∧ t.errCode = 1 :=
  ⟨by decide, by constructor <;> decide, by decide, by decide, by decide, _, rfl, rfl⟩

/-- IndicesAreTheDoubleHash, IndicesStepAndRepeat: the least table size. -/
theorem witness_indices : 1 ≤ 1 ∧ indexOf kTest 1 0 = 0 := by decide

/-- HashingCommandsCheckTheirOperands, and the two checks of every hashing command: no filter, KEY_LEN just above MAX_KEY_BYTES,
and at it with a byte without a value. -/
theorem witness_HashingCommandsCheckTheirOperands :
    isHashing .index = true ∧ s0.engValid = false ∧ (filter2 [0, 0, 0] []).engValid = true ∧
    maxKeyBytes s0 < ((65 : Word)).toNat ∧ ((64 : Word)).toNat ≤ maxKeyBytes s0 ∧
    ∃ o < ((64 : Word)).toNat, (filter2 [0, 0, 0] []).key.read o = none :=
  ⟨by decide, by decide, by decide, by decide, by decide, 0, by decide, by decide⟩

/-- HashWritesTheBaseHashes, IndexWritesOneCandidate: also the empty key. -/
theorem witness_hashable :
    Hashable (filter2 [0x84, 0x21, 0x00] kTest1) kTest1 ∧ Hashable (filter2 [0, 0, 0] []) [] ∧
    1 ≤ (filter2 [0x84, 0x21, 0x00] kTest1).bitCount.toNat :=
  ⟨hashable_filter2, ⟨by decide, by decide, by decide, by unfold Holds; decide⟩, by decide⟩

/-- SizingIsTheExactRealCeiling, SizingMatchesTheFixedPointConstant: the ends of their ranges. -/
theorem witness_sizing_ranges : 1 ≤ 1 ∧ 1 ≤ 2 ^ 64 - 1 ∧ 2 ^ 64 - 1 < 2 ^ 64 ∧ 1 ≤ 2 ^ 32 - 1 ∧ 2 ^ 32 - 1 < 2 ^ 32 := by
  decide

/-- NewMakesAnEmptyFilter: capacity 0, the largest capacity that fits, the first that does not. -/
theorem witness_NewMakesAnEmptyFilter :
    s0.arg0 = 0 ∧ (106 : Word) ≠ 0 ∧ sizedBits ((106 : Word)).toNat ≤ maxBits s0 ∧ (107 : Word) ≠ 0 ∧
    maxBits s0 < sizedBits ((107 : Word)).toNat := by decide

/-- LookupTestsEveryCandidateBit, InsertSetsEveryCandidateBit: a member key and a key that is none. -/
theorem witness_membership :
    (Rules39 (filter2 [0x84, 0x21, 0x00] kTest1) ∧ Hashable (filter2 [0x84, 0x21, 0x00] kTest1) kTest1) ∧
    Rules39 (filter2 [0, 0, 0] kTest) ∧ Hashable (filter2 [0, 0, 0] kTest) kTest :=
  ⟨⟨rules_filter2, hashable_filter2⟩, rules_fresh, hashable_fresh⟩

/-- NoFalseNegatives: an INSERT, then a host transaction. -/
theorem witness_NoFalseNegatives :
    ∃ (s t u : State) (K : List Byte), Inv s ∧ Hashable s K ∧ exec .insert s = .next t ∧ QuietStep t u ∧
      u.keyLen.toNat ≤ maxKeyBytes u ∧ KeyIs u K := by
  refine ⟨{ filter2 [0x84, 0x21, 0x00] kTest1 with schedule := [.host (.regWrite 0x06 5)] }, _, _, kTest1,
    ⟨?_, ?_⟩, ⟨by decide, by decide, by decide, by unfold Holds; decide⟩, rfl,
    ⟨rfl, by decide, fun i h => ?_⟩, by decide, by decide, by unfold Holds; decide⟩
  · constructor <;> decide
  · exact ⟨by decide, by decide, by decide, by decide, by unfold Inside; decide, by unfold Inside; decide,
      by unfold Inside; decide, fun w h => (by cases h), by decide, by decide, by decide, by decide, by decide⟩
  · simp [executes, finish, writeHashes, filter2] at h

/-- SecondInsertChangesNoBit. -/
theorem witness_SecondInsertChangesNoBit :
    Rules39 (filter2 [0, 0, 0] kTest) ∧ Hashable (filter2 [0, 0, 0] kTest) kTest ∧
    ∃ t, exec .insert (filter2 [0, 0, 0] kTest) = .next t := ⟨rules_fresh, hashable_fresh, _, rfl⟩

/-- EngineCommandsNeverClearABit: a command that only reads, and an INSERT while a bit is set. -/
theorem witness_EngineCommandsNeverClearABit :
    (∃ t, exec .lookup (filter2 [0x84, 0x21, 0x00] kTest1) = .next t) ∧
    (∃ t, exec .insert (filter2 [0x84, 0x21, 0x00] kTest1) = .next t) ∧
    bitAt (filter2 [0x84, 0x21, 0x00] kTest1).bitmem 0 = true := ⟨⟨_, rfl⟩, ⟨_, rfl⟩, by decide⟩

/-- BsSaveWritesTheBitStoreImage, SaveWritesTheFilterImage: no store, and a store with its bytes. -/
theorem witness_saves :
    s0.bsValid = false ∧ s0.engValid = false ∧ StoreIs (store10 [0x04, 0x40]) [0x04, 0x40] ∧
    StoreIs (filter2 [0x84, 0x21, 0x00] kTest1) [0x84, 0x21, 0x00] :=
  ⟨by decide, by decide, ⟨by decide, by unfold Holds; decide⟩, by decide, by unfold Holds; decide⟩

/-- The last byte of a u64 field of an image is `v`, the seven before it are 0. -/
def field (v : Byte) : List Byte := List.replicate 7 0 ++ [v]

/-- IMG holds `pre` from offset 0 and `post` from offset `o`, and IMG_LEN ends `post`. -/
def gapped (pre : List Byte) (o : Nat) (post : List Byte) : State :=
  { s0 with img := (cells pre).writeBytes o post, imgLen := BitVec.ofNat 64 (o + post.length) }

/-- IntegersLieInTheirByteOrder: a u64 field, and a tail chunk of a key. -/
theorem witness_IntegersLieInTheirByteOrder : (field 2).length = 8 ∧ kAb.length ≤ 4 := by decide

/-- BsLoadInstallsOrRejects: an image (95_test_vectors.md 2.4) for each error in turn, and one it installs. -/
theorem witness_BsLoadInstallsOrRejects :
    (maxImageBytes s0 < ((154 : Word)).toNat ∧ ((153 : Word)).toNat ≤ maxImageBytes s0 ∧ ((7 : Word)).toNat < 8) ∧
    (FieldIs (withImage (List.replicate 15 0)) 0 (field 0) ∧ 8 ≤ 15 ∧ 15 < 16 + beNat (field 0)) ∧
    (let I := field 1 ++ field 0 ++ [8, 0]
     FieldIs (withImage I) 0 (field 1) ∧ FieldIs (withImage I) (8 + beNat (field 1)) (List.replicate 7 0 ++ [8]) ∧
       16 + beNat (field 1) < I.length) ∧
    (let I := field 2 ++ [0, 0] ++ field 0x11
     FieldIs (withImage I) 0 (field 2) ∧ FieldIs (withImage I) (8 + beNat (field 2)) (field 0x11) ∧
       I.length = 16 + beNat (field 2) ∧ beNat (field 2) ≠ (beNat (field 0x11) + 7) / 8) ∧
    (let I := field 2 ++ [0, 0] ++ field 9
     let s := { withImage I with maxBitsR := 8 }
     FieldIs s 0 (field 2) ∧ FieldIs s (8 + beNat (field 2)) (field 9) ∧ s.imgLen.toNat ≤ maxImageBytes s ∧
       s.imgLen.toNat = 16 + beNat (field 2) ∧ beNat (field 2) = (beNat (field 9) + 7) / 8 ∧
       maxBits s < beNat (field 9)) ∧
    (let s := withImage imgB
     FieldIs s 0 (field 2) ∧ FieldIs s (8 + beNat (field 2)) (field 0x0a) ∧ Holds s.img 8 [0x04, 0x40] ∧
       s.imgLen.toNat ≤ maxImageBytes s ∧ s.imgLen.toNat = 16 + beNat (field 2) ∧
       beNat (field 2) = (beNat (field 0x0a) + 7) / 8 ∧ beNat (field 0x0a) ≤ maxBits s) := by
  unfold FieldIs Holds; exact ⟨by decide, by decide, by decide, by decide, by decide, by decide⟩

/-- BsLoadInstallsOrRejects: a byte without a value at each of the three reads. -/
theorem witness_BsLoad_gaps :
    ((gapped [] 1 (List.replicate 15 0)).img.read 0 = none ∧ 8 ≤ (gapped [] 1 (List.replicate 15 0)).imgLen.toNat) ∧
    (let s := gapped (field 0) 9 (List.replicate 7 0)
     FieldIs s 0 (field 0) ∧ 16 + beNat (field 0) ≤ s.imgLen.toNat ∧ s.img.read (8 + beNat (field 0)) = none) ∧
    (let s := gapped (field 1) 9 (field 8)
     FieldIs s 0 (field 1) ∧ FieldIs s (8 + beNat (field 1)) (field 8) ∧ s.imgLen.toNat = 16 + beNat (field 1) ∧
       beNat (field 1) = (beNat (field 8) + 7) / 8 ∧ beNat (field 8) ≤ maxBits s ∧ s.img.read 8 = none) := by
  unfold FieldIs Holds; exact ⟨by decide, by decide, by decide⟩

/-- LoadInstallsOrRejects: an image (95_test_vectors.md 2.4) for each error in turn, and one it installs. -/
theorem witness_LoadInstallsOrRejects :
    (maxImageBytes s0 < ((154 : Word)).toNat ∧ ((16 : Word)).toNat ≤ maxImageBytes s0 ∧ ((16 : Word)).toNat < 17) ∧
    (let s := withImage (List.replicate 16 0 ++ [2])
     17 ≤ s.imgLen.toNat ∧ s.img.read (s.imgLen.toNat - 1) = some 2 ∧ 1 < (2 : Byte).toNat) ∧
    (let s := withImage (List.replicate 17 0)
     s.img.read (s.imgLen.toNat - 1) = some 0 ∧ FieldIs s (s.imgLen.toNat - 9) (field 0) ∧ FieldIs s 0 (field 0) ∧
       s.imgLen.toNat < 25 + beNat (field 0)) ∧
    (let s := withImage (field 1 ++ [0x80] ++ field 1 ++ [0xaa] ++ field 7 ++ [0])
     s.img.read (s.imgLen.toNat - 1) = some 0 ∧ FieldIs s (s.imgLen.toNat - 9) (field 7) ∧ FieldIs s 0 (field 1) ∧
       FieldIs s (8 + beNat (field 1)) (field 1) ∧ 25 + beNat (field 1) < s.imgLen.toNat) ∧
    (let s := withImage (field 1 ++ [0x80] ++ field 9 ++ field 7 ++ [0])
     FieldIs s (s.imgLen.toNat - 9) (field 7) ∧ FieldIs s 0 (field 1) ∧ FieldIs s (8 + beNat (field 1)) (field 9) ∧
       s.imgLen.toNat = 25 + beNat (field 1) ∧ beNat (field 1) ≠ (beNat (field 9) + 7) / 8) ∧
    (let s := withImage (field 0 ++ field 0 ++ field 7 ++ [0])
     FieldIs s (s.imgLen.toNat - 9) (field 7) ∧ FieldIs s 0 (field 0) ∧ FieldIs s (8 + beNat (field 0)) (field 0) ∧
       s.imgLen.toNat = 25 + beNat (field 0) ∧ beNat (field 0) = (beNat (field 0) + 7) / 8) ∧
    (let s := { withImage (field 2 ++ [0, 0] ++ field 10 ++ field 7 ++ [0]) with maxBitsR := 9 }
     FieldIs s (s.imgLen.toNat - 9) (field 7) ∧ FieldIs s 0 (field 2) ∧ FieldIs s (8 + beNat (field 2)) (field 10) ∧
       s.imgLen.toNat ≤ maxImageBytes s ∧ s.imgLen.toNat = 25 + beNat (field 2) ∧
       beNat (field 2) = (beNat (field 10) + 7) / 8 ∧ beNat (field 10) ≠ 0 ∧ beNat (field 7) ≠ 0 ∧
       maxBits s < beNat (field 10)) ∧
    (let s := withImage imgC
     s.imgLen.toNat ≤ maxImageBytes s ∧ s.img.read (s.imgLen.toNat - 1) = some 0 ∧
       FieldIs s (s.imgLen.toNat - 9) (field 7) ∧ FieldIs s 0 (field 3) ∧
       FieldIs s (8 + beNat (field 3)) (field 0x14) ∧ Holds s.img 8 [0x84, 0x21, 0x00] ∧
       s.imgLen.toNat = 25 + beNat (field 3) ∧ beNat (field 3) = (beNat (field 0x14) + 7) / 8 ∧
       beNat (field 0x14) ≤ maxBits s) := by
  unfold FieldIs Holds; exact ⟨by decide, by decide, by decide, by decide, by decide, by decide, by decide, by decide⟩

/-- LoadInstallsOrRejects: a byte without a value at each of the five reads. -/
theorem witness_Load_gaps :
    ((withImage []).img.read (17 - 1) = none ∧ 17 ≤ maxImageBytes (withImage [])) ∧
    (let s := gapped [] 16 [0]
     s.imgLen.toNat = 17 ∧ s.img.read (s.imgLen.toNat - 1) = some 0 ∧ s.img.read (s.imgLen.toNat - 9) = none) ∧
    (let s := gapped [] 16 (field 7 ++ [0])
     s.img.read (s.imgLen.toNat - 1) = some 0 ∧ FieldIs s (s.imgLen.toNat - 9) (field 7) ∧ s.img.read 0 = none) ∧
    (let s := gapped (field 0) 16 (field 7 ++ [0])
     s.img.read (s.imgLen.toNat - 1) = some 0 ∧ FieldIs s (s.imgLen.toNat - 9) (field 7) ∧ FieldIs s 0 (field 0) ∧
       25 + beNat (field 0) ≤ s.imgLen.toNat ∧ s.img.read (8 + beNat (field 0)) = none) ∧
    (let s := gapped (field 1) 9 (field 8 ++ field 7 ++ [0])
     s.img.read (s.imgLen.toNat - 1) = some 0 ∧ FieldIs s (s.imgLen.toNat - 9) (field 7) ∧ FieldIs s 0 (field 1) ∧
       FieldIs s (8 + beNat (field 1)) (field 8) ∧ s.imgLen.toNat = 25 + beNat (field 1) ∧
       beNat (field 1) = (beNat (field 8) + 7) / 8 ∧ beNat (field 8) ≤ maxBits s ∧ s.img.read 8 = none) := by
  unfold FieldIs Holds; exact ⟨by decide, by decide, by decide, by decide, by decide⟩

/-- LoadsAcceptOnlyWholeImages. -/
theorem witness_LoadsAcceptOnlyWholeImages :
    (∃ t, exec .bsLoad (withImage imgB) = .next t ∧ t.err = false) ∧
    ∃ t, exec .load (withImage imgC) = .next t ∧ t.err = false := ⟨⟨_, rfl, rfl⟩, _, rfl, rfl⟩

/-- BitStoreRoundTrip, FilterRoundTrip: another key than the one KEY holds when SAVE runs. -/
theorem witness_round_trips :
    (Inv (store10 [0x04, 0x40]) ∧ (store10 [0x04, 0x40]).bsValid = true) ∧
    Inv (filter2 [0x84, 0x21, 0x00] kTest1) ∧ (filter2 [0x84, 0x21, 0x00] kTest1).engValid = true ∧
    Hashable { filter2 [0x84, 0x21, 0x00] kTest1 with key := cells kTest, keyLen := 4 } kTest :=
  ⟨⟨⟨rules_store10, kept_store10⟩, by decide⟩, ⟨rules_filter2, kept_filter2⟩, by decide,
    by decide, by decide, by decide, by unfold Holds; decide⟩

end Sys2Proof.Tests
end

section
/-! PROOFS. 00_scope.md: every step has a meaning (R12), and integers lie in memory in their byte order (R11). -/

namespace Sys2Proof.Machine

/-! ### No refusal -/

theorem engineStep_not_refused {s : State} {r : Refusal} : engineStep s ≠ .refused r := by
  unfold engineStep
  split
  · simp
  · split
    · simp [raise]
    · exact exec_not_refused

theorem engineTurn_not_refused {s : State} {r : Refusal} : engineTurn s ≠ .refused r := by
  unfold engineTurn
  split
  · exact engineStep_not_refused
  · simp

theorem runTurn_not_refused {t : Turn} {s : State} {r : Refusal} : runTurn t s ≠ .refused r := by
  cases t with
  | engine => exact engineTurn_not_refused
  | host t => simp [runTurn]
  | reset => simp [runTurn]

/-- Settles O10: the outcome of a step is that of its turn, and no turn is refused. -/
theorem noStepIsRefused : Obligations.NoStepIsRefused := by
  intro s r
  unfold step
  split
  · exact engineTurn_not_refused
  · exact runTurn_not_refused

/-! ### Byte order -/

@[simp] theorem leNat_nil : leNat [] = 0 := rfl

@[simp] theorem leNat_cons (b : Byte) (bs : List Byte) : leNat (b :: bs) = b.toNat + 256 * leNat bs := rfl

theorem leNat_lt (bs : List Byte) : leNat bs < 256 ^ bs.length := by
  induction bs with
  | nil => simp
  | cons b bs ih =>
    have := b.isLt
    rw [leNat_cons, List.length_cons, pow_succ]
    omega

/-- Bytes above the end of the sequence count as 0, so any `n` at least its length gives the same sum. -/
theorem leNat_eq_sum {bs : List Byte} {n : Nat} (h : bs.length ≤ n) :
    leNat bs = ((List.range n).map fun t => (bs[t]?.getD 0).toNat * 256 ^ t).sum := by
  induction bs generalizing n with
  | nil => simp
  | cons b bs ih =>
    obtain _ | n := n
    · simp at h
    have hscale : (fun t => ((b :: bs)[t]?.getD 0).toNat * 256 ^ t) ∘ Nat.succ =
        fun t => 256 * ((bs[t]?.getD 0).toNat * 256 ^ t) := by
      funext t
      simp only [Function.comp_apply, Nat.succ_eq_add_one, List.getElem?_cons_succ, pow_succ]
      ring
    rw [leNat_cons, ih (Nat.le_of_succ_le_succ h), List.range_succ_eq_map, List.map_cons, List.sum_cons,
      List.map_map, hscale, List.sum_map_mul_left]
    simp

theorem beNat_eq_sum (bs : List Byte) :
    beNat bs = ((List.range bs.length).map fun t => (bs[t]?.getD 0).toNat * 256 ^ (bs.length - 1 - t)).sum := by
  induction bs using List.reverseRecOn with
  | nil => simp [beNat]
  | append_singleton bs b ih =>
    have hscale : ∀ t ∈ List.range bs.length, ((bs ++ [b])[t]?.getD 0).toNat * 256 ^ (bs.length - t) =
        (bs[t]?.getD 0).toNat * 256 ^ (bs.length - 1 - t) * 256 := fun t ht => by
      have hlt : t < bs.length := List.mem_range.1 ht
      rw [List.getElem?_append_left hlt, mul_assoc, ← pow_succ, show bs.length - 1 - t + 1 = bs.length - t by omega]
    rw [beNat_append, ih, List.length_append, List.length_singleton, List.range_succ, List.map_append,
      List.sum_append, Nat.add_sub_cancel, List.map_congr_left hscale, List.sum_map_mul_right]
    simp

theorem toNat_le32 {bs : List Byte} (h : bs.length ≤ 4) : (le32 bs).toNat = leNat bs := by
  have hlt : leNat bs < 2 ^ 32 := (leNat_lt bs).trans_le (Nat.pow_le_pow_right (n := 256) (by decide) h)
  rw [le32, BitVec.toNat_ofNat, Nat.mod_eq_of_lt hlt]

/-- Settles O53: both readings as positional sums, with put_be64 the inverse of be64. -/
theorem integersLieInTheirByteOrder : Obligations.IntegersLieInTheirByteOrder := by
  refine ⟨fun v => ⟨length_be64Bytes v, fun t ht => be64Bytes_get v ht, beNat_be64Bytes v⟩,
    fun F hF => ⟨be64Bytes_beNat hF, ?_⟩, fun F hF => ⟨leNat_eq_sum hF, toNat_le32 hF⟩⟩
  have hsum := beNat_eq_sum F
  rwa [hF] at hsum

end Sys2Proof.Machine
end

section
/-! PROOFS. 10_state.md: the turns of a step, the completion of a command and what it writes, the host transactions, and what
every step keeps (R29 to R47). -/

namespace Sys2Proof.Machine

/-! ### The turns of a step -/

theorem decode_encode (i : Instr) : decode (encode i) = .ok i := by
  cases i <;> decide

theorem engineStep_of_decode {s : State} {w : Word} {i : Instr} (hp : s.pending = some w) (hd : decode w = .ok i) :
    engineStep s = exec i s := by
  simp [engineStep, hp, hd]

theorem engineTurn_of_busy {s : State} (h : s.busy = true) : engineTurn s = engineStep s := if_pos h

theorem engineTurn_of_idle {s : State} (h : s.busy = false) : engineTurn s = .next s := by
  simp [engineTurn, h]

theorem step_of_nil {s : State} (h : s.schedule = []) : step s = engineTurn s := by
  simp [step, h]

theorem step_of_cons {s : State} {t : Turn} {rest : List Turn} (h : s.schedule = t :: rest) :
    step s = runTurn t { s with schedule := rest } := by
  simp [step, h]

/-- What a step can do, on the state with its turn taken off the schedule: the engine's step, nothing, a transaction, a reset. -/
theorem step_next_cases {s t : State} (h : step s = .next t) : ∃ u : State, (∃ l, u = { s with schedule := l }) ∧
    (engineStep u = .next t ∨ t = u ∨ (∃ x, t = hostTxn x u) ∨ t = resetEvent u) := by
  have ofEngineTurn : ∀ {u : State}, engineTurn u = .next t → engineStep u = .next t ∨ t = u := by
    intro u hu
    cases hb : u.busy with
    | true => exact .inl (engineTurn_of_busy hb ▸ hu)
    | false => rw [engineTurn_of_idle hb] at hu; cases hu; exact .inr rfl
  cases hl : s.schedule with
  | nil =>
    rw [step_of_nil hl] at h
    exact ⟨s, ⟨[], by rw [← hl]⟩, (ofEngineTurn h).imp_right .inl⟩
  | cons x rest =>
    rw [step_of_cons hl] at h
    refine ⟨_, ⟨rest, rfl⟩, ?_⟩
    cases x with
    | engine => exact (ofEngineTurn h).imp_right .inl
    | host x => cases h; exact .inr (.inr (.inl ⟨x, rfl⟩))
    | reset => cases h; exact .inr (.inr (.inr rfl))

/-- Settles O6: with BUSY = 1 both engine turns come down to exec of the decoded instruction. -/
theorem stepRunsTheDecodedCommand : Obligations.StepRunsTheDecodedCommand := by
  intro s w i hb hp hd
  constructor
  · intro hl
    rw [step_of_nil hl, engineTurn_of_busy hb, engineStep_of_decode hp hd]
  · intro rest hl
    calc step s = engineTurn { s with schedule := rest } := step_of_cons hl
      _ = engineStep { s with schedule := rest } := engineTurn_of_busy hb
      _ = exec i { s with schedule := rest } := engineStep_of_decode hp hd

/-- Settles O7: one equation of the step per turn. -/
theorem stepTakesTheOtherTurns : Obligations.StepTakesTheOtherTurns := by
  intro s rest
  refine ⟨fun t hl => step_of_cons hl, fun hl => step_of_cons hl, fun hl hb => ?_, fun hl hb => ?_⟩
  · exact (step_of_cons hl).trans (engineTurn_of_idle hb)
  · rw [step_of_nil hl, engineTurn_of_idle hb]

/-- Settles O8: the placed word is the instruction's own, and the engine's turn stands first in the schedule. -/
theorem placedWordRunsNext : Obligations.PlacedWordRunsNext := by
  intro s i
  have hw : BitVec.ofNat 64 ((encode i).toNat % 2 ^ 64) = encode i := by
    rw [Nat.mod_eq_of_lt (encode i).isLt, BitVec.ofNat_toNat, BitVec.setWidth_eq]
  rw [State.withFetchWord, hw]
  exact (stepRunsTheDecodedCommand _ _ _ rfl rfl (decode_encode i)).2 _ rfl

/-! ### The completion of a command -/

theorem errorCode_eq_one_iff {e : CmdError} : errorCode e = 1 ↔ e = .bounds := by
  cases e <;> simp [errorCode]

theorem errorCode_ne_zero (e : CmdError) : errorCode e ≠ 0 := by
  cases e <;> simp [errorCode]

theorem errorCode_detail_produced (e : CmdError) : (errorCode e, errorDetail e) ∈ producedCodes := by
  cases e
  case illegal r => cases r <;> decide
  all_goals decide

/-- ERR_LIMIT told by the code. -/
theorem finish_errLimit_eq (e : Option CmdError) (s : State) :
    (finish e s).errLimit = if (finish e s).errCode = 1 then s.bitCount else 0 := by
  cases e with
  | none => rfl
  | some e => exact if_congr (Option.some_inj.trans errorCode_eq_one_iff.symm) rfl rfl

theorem finish_err_iff (e : Option CmdError) (s : State) : (finish e s).err = true ↔ (finish e s).errCode ≠ 0 := by
  cases e with
  | none => simp
  | some e => exact iff_of_true rfl (errorCode_ne_zero e)

theorem finish_codes_produced (e : Option CmdError) (s : State) :
    ((finish e s).errCode, (finish e s).errDetail) ∈ producedCodes := by
  cases e with
  | none => simp [producedCodes]
  | some e => exact errorCode_detail_produced e

/-- The errors of 60_exceptions.md R240, in its order. -/
def producedErrors : List CmdError :=
  [.bounds, .formatShort, .formatOverrun, .formatLength, .formatTrailing, .formatMode, .formatZero, .config,
    .illegal .reservedBits, .illegal .reservedOpcode, .illegal .illegalF, .noStore, .noFilter, .keyTooLong, .imageTooLong,
    .capacityNew, .capacityLoad]

/-- Settles O13: the rows of the table are the codes and details of the model, and a raised error writes those. -/
theorem completionWritesStatus : Obligations.CompletionWritesStatus := by
  intro s
  refine ⟨rfl, fun e c d hrow => ?_⟩
  change (e, c, d) ∈ producedErrors.map fun e => (e, errorCode e, errorDetail e) at hrow
  obtain ⟨_, -, hrow⟩ := List.mem_map.1 hrow
  cases hrow
  have hlimit : (if some e = some .bounds then s.bitCount else 0) = if errorCode e = 1 then s.bitCount else 0 :=
    finish_errLimit_eq (some e) s
  rw [← hlimit]
  rfl

/-! ### What the commands write -/

/-- The store a command may install: it fits, its bytes cover it, and the counts and the mode are those of its kind (R39). -/
structure Installable (s : State) (c : Word) (B : List Byte) (k : Word) (mode : Byte) (filter : Bool) : Prop where
  fits : c.toNat ≤ maxBits s
  covered : B.length = nbytes c.toNat
  filter_counts : filter = true → 1 ≤ c.toNat ∧ 1 ≤ k.toNat
  no_filter : filter = false → k = 0 ∧ mode = 0
  mode_legal : mode = 0 ∨ mode = 1

/-- A bit memory with bits assigned: its bytes hold values where they did, in the same form and size. -/
structure SameBytesHeld (m m' : Memory) : Prop where
  held : ∀ a, (m'.read a).isSome = (m.read a).isSome
  form : m.wf → m'.wf
  inside : ∀ size, Inside m size → Inside m' size

/-- The writes a command may commit, by what it writes (10_state.md section 5). -/
inductive Writes : Instr → State → State → Prop
  | store {i s c B k mode filter} (hi : i ∈ [Instr.bsNew, .new0, .new1, .bsLoad, .load])
      (h : Installable s c B k mode filter) : Writes i s (installStore c B k mode filter s)
  | bit {i s m} (hi : i ∈ [Instr.bitSet0, .bitSet1]) (h : SameBytesHeld s.bitmem m) : Writes i s { s with bitmem := m }
  | bitRead {s} (r : Word) : Writes .bitGet s { s with result := r }
  | hashes {s} (K : List Byte) : Writes .hash s (writeHashes K s)
  | hashesAndResult {i s} (hi : i ∈ [Instr.index, .insert, .lookup]) (K : List Byte) (r : Word) :
      Writes i s { writeHashes K s with result := r }
  | insertion {s m} (K : List Byte) (r : Word) (h : SameBytesHeld s.bitmem m) :
      Writes .insert s { writeHashes K s with bitmem := m, result := r }
  | image {i s I} (hi : i ∈ [Instr.bsSave, .save]) (hs : s.bsValid = true ∨ s.engValid = true)
      (h : I.length ≤ nbytes s.bitCount.toNat + 25) : Writes i s (storeImage I s)

theorem setBit_sameBytesHeld {m m' : Memory} {i : Nat} {v : Bool} (h : setBit m i v = .ok m') : SameBytesHeld m m' := by
  obtain ⟨-, -, -, hheld⟩ := setBit_ok h
  obtain ⟨hform, hinside⟩ := setBit_form h
  exact ⟨hheld, hform, hinside⟩

theorem setAll_sameBytesHeld {m m' : Memory} {l : List Nat} (h : setAll m l = .ok m') : SameBytesHeld m m' := by
  obtain ⟨-, hheld, -⟩ := setAll_ok h
  obtain ⟨hform, hinside⟩ := setAll_form h
  exact ⟨hheld, hform, hinside⟩

theorem one_le_toNat {v : Word} (h : v ≠ 0) : 1 ≤ v.toNat :=
  Nat.one_le_iff_ne_zero.2 fun h0 => h (BitVec.eq_of_toNat_eq h0)

theorem byte_le_one {b : Byte} (h : b.toNat ≤ 1) : b = 0 ∨ b = 1 := by
  rcases Nat.le_one_iff_eq_zero_or_eq_one.1 h with h | h
  · exact .inl (BitVec.eq_of_toNat_eq h)
  · exact .inr (BitVec.eq_of_toNat_eq h)

/-- A sizing that fits in the block fits in BIT_COUNT. -/
theorem installable_new {s : State} {mode : Byte} (hmode : mode = 0 ∨ mode = 1) (h : sizedBits s.arg0.toNat ≤ maxBits s) :
    Installable s (BitVec.ofNat 64 (sizedBits s.arg0.toNat))
      (List.replicate (nbytes (sizedBits s.arg0.toNat)) 0) filterHashes mode true := by
  have hc : (BitVec.ofNat 64 (sizedBits s.arg0.toNat)).toNat = sizedBits s.arg0.toNat :=
    Nat.mod_eq_of_lt (h.trans_lt s.maxBitsR.isLt)
  exact ⟨by rwa [hc], by rw [hc, List.length_replicate], fun _ => ⟨by rw [hc]; exact Nat.le_add_left _ _, by decide⟩,
    fun h => absurd h (by decide), hmode⟩

/-- Every effect is one of the writes of its kind. -/
theorem writes_of_effect {i : Instr} {s s' : State} (h : Effect i s s') : Writes i s s' := by
  cases i
  case bsNew =>
    obtain ⟨hfits, rfl⟩ := h
    exact .store (by decide) ⟨hfits, List.length_replicate, fun h => absurd h (by decide), fun _ => ⟨rfl, rfl⟩, .inl rfl⟩
  case bitSet0 =>
    obtain ⟨-, -, m, hm, rfl⟩ := h
    exact .bit (by decide) (setBit_sameBytesHeld hm)
  case bitSet1 =>
    obtain ⟨-, -, m, hm, rfl⟩ := h
    exact .bit (by decide) (setBit_sameBytesHeld hm)
  case bitGet =>
    obtain ⟨-, -, -, rfl⟩ := h
    exact .bitRead _
  case hash =>
    obtain ⟨K, -, rfl⟩ := h
    exact .hashes K
  case index =>
    obtain ⟨K, -, rfl⟩ := h
    exact .hashesAndResult (by decide) K _
  case new0 =>
    obtain ⟨-, hfits, rfl⟩ := h
    exact .store (by decide) (installable_new (.inl rfl) hfits)
  case new1 =>
    obtain ⟨-, hfits, rfl⟩ := h
    exact .store (by decide) (installable_new (.inr rfl) hfits)
  case insert =>
    obtain ⟨K, -, ⟨-, rfl⟩ | ⟨-, m, hm, rfl⟩⟩ := h
    · exact .hashesAndResult (by decide) K _
    · exact .insertion K _ (setAll_sameBytesHeld hm)
  case lookup =>
    obtain ⟨K, -, r, -, rfl⟩ := h
    exact .hashesAndResult (by decide) K _
  case bsSave =>
    obtain ⟨hv, B, ⟨hB, -⟩, rfl⟩ := h
    exact .image (by decide) (.inl hv) (by rw [length_segmentImage]; omega)
  case bsLoad =>
    obtain ⟨c, B, -, hB, hfits, -, rfl⟩ := h
    exact .store (by decide) ⟨hfits, hB, fun h => absurd h (by decide), fun _ => ⟨rfl, rfl⟩, .inl rfl⟩
  case save =>
    obtain ⟨hv, B, ⟨hB, -⟩, rfl⟩ := h
    exact .image (by decide) (.inr hv) (by rw [length_filterImage]; omega)
  case load =>
    obtain ⟨c, k, mode, B, -, hB, hfits, hc, hk, hmode, -, rfl⟩ := h
    exact .store (by decide) ⟨hfits, hB, fun _ => ⟨one_le_toNat hc, one_le_toNat hk⟩, fun h => absurd h (by decide),
      byte_le_one hmode⟩

theorem exec_next_writes {i : Instr} {s t : State} (h : exec i s = .next t) :
    (∃ e, t = finish (some e) s) ∨ ∃ s', Writes i s s' ∧ t = finish none s' := by
  rcases exec_next h with ⟨e, -, rfl⟩ | ⟨s', hs', rfl⟩
  · exact .inl ⟨e, rfl⟩
  · exact .inr ⟨s', writes_of_effect hs', rfl⟩

/-- How a command completes, an illegal word too. -/
theorem engineStep_next_writes {s t : State} (h : engineStep s = .next t) :
    (∃ e, t = finish (some e) s) ∨ ∃ i s', Writes i s s' ∧ t = finish none s' := by
  unfold engineStep at h
  split at h
  · cases h
  · split at h
    · cases h; exact .inl ⟨_, rfl⟩
    · exact (exec_next_writes h).imp_right fun h => ⟨_, h⟩

/-- Settles O14: a completion is a finish, with the error on the state as it stood or without one. -/
theorem everyCompletionReportsLegally : Obligations.EveryCompletionReportsLegally := by
  intro s t h
  have ends : (∃ e, t = finish (some e) s) ∨ ∃ i s', Writes i s s' ∧ t = finish none s' := by
    rcases h with h | ⟨i, h⟩
    · exact engineStep_next_writes h
    · exact (exec_next_writes h).imp_right fun h => ⟨i, h⟩
  rcases ends with ⟨e, rfl⟩ | ⟨i, s', -, rfl⟩
  · exact ⟨rfl, rfl, rfl, finish_err_iff _ _, finish_errLimit_eq _ _, finish_codes_produced _ _⟩
  · exact ⟨rfl, rfl, rfl, finish_err_iff _ _, rfl, finish_codes_produced _ _⟩

/-- Settles O17: no write of a command is to an operand of the host. -/
theorem commandsNeverWriteHostOperands : Obligations.CommandsNeverWriteHostOperands := by
  intro i s t h
  rcases exec_next_writes h with ⟨e, rfl⟩ | ⟨s', hw, rfl⟩
  · exact ⟨rfl, rfl, rfl, rfl, rfl, rfl, rfl, rfl, rfl, rfl⟩
  · cases hw <;> exact ⟨rfl, rfl, rfl, rfl, rfl, rfl, rfl, rfl, rfl, rfl⟩

/-- Settles O18: an instruction outside a register's list commits a write of another kind. -/
theorem onlyTheListedCommandsWriteEachRegister : Obligations.OnlyTheListedCommandsWriteEachRegister := by
  intro i s t h
  rcases exec_next_writes h with ⟨e, rfl⟩ | ⟨s', hw, rfl⟩
  · exact ⟨fun _ => ⟨rfl, rfl, rfl, rfl, rfl⟩, fun _ => rfl, fun _ => ⟨rfl, rfl, rfl, rfl⟩, fun _ => ⟨rfl, rfl⟩,
      fun _ => rfl⟩
  cases hw with
  | store hi =>
    exact ⟨fun h => absurd hi h, fun _ => rfl, fun _ => ⟨rfl, rfl, rfl, rfl⟩, fun _ => ⟨rfl, rfl⟩,
      fun h => absurd (List.mem_append_left _ hi) h⟩
  | bit hi =>
    exact ⟨fun _ => ⟨rfl, rfl, rfl, rfl, rfl⟩, fun _ => rfl, fun _ => ⟨rfl, rfl, rfl, rfl⟩, fun _ => ⟨rfl, rfl⟩,
      fun h => absurd (List.mem_append_right [Instr.bsNew, .new0, .new1, .bsLoad, .load] (List.mem_append_left _ hi)) h⟩
  | bitRead =>
    exact ⟨fun _ => ⟨rfl, rfl, rfl, rfl, rfl⟩, fun h => absurd (by decide) h, fun _ => ⟨rfl, rfl, rfl, rfl⟩,
      fun _ => ⟨rfl, rfl⟩, fun _ => rfl⟩
  | hashes =>
    exact ⟨fun _ => ⟨rfl, rfl, rfl, rfl, rfl⟩, fun _ => rfl, fun h => absurd (by decide) h,
      fun _ => ⟨rfl, rfl⟩, fun _ => rfl⟩
  | hashesAndResult hi =>
    exact ⟨fun _ => ⟨rfl, rfl, rfl, rfl, rfl⟩, fun h => absurd (List.mem_cons_of_mem _ hi) h,
      fun h => absurd (List.mem_cons_of_mem _ hi) h, fun _ => ⟨rfl, rfl⟩, fun _ => rfl⟩
  | insertion =>
    exact ⟨fun _ => ⟨rfl, rfl, rfl, rfl, rfl⟩, fun h => absurd (by decide) h, fun h => absurd (by decide) h,
      fun _ => ⟨rfl, rfl⟩, fun h => absurd (by decide) h⟩
  | image hi =>
    exact ⟨fun _ => ⟨rfl, rfl, rfl, rfl, rfl⟩, fun _ => rfl, fun _ => ⟨rfl, rfl, rfl, rfl⟩,
      fun h => absurd hi h, fun _ => rfl⟩

/-! ### Register writes, by register number -/

theorem regOf_eq_none {r : Nat} (h : 18 ≤ r) : regOf r = none := by
  obtain ⟨n, rfl⟩ := Nat.exists_eq_add_of_le' h
  rfl

/-- The numbers of the read-only registers (10_state.md R21, R22). -/
def readOnlyNumbers : List Nat := [0x00, 0x01, 0x02, 0x03, 0x09, 0x0A, 0x0B, 0x0C, 0x0D, 0x0E, 0x0F, 0x10, 0x11]

theorem regWrite_cmd (v : Word) (s : State) :
    regWrite 0x04 v s = if s.busy then dropWrite s else answer .ok (acceptCommand v s) := rfl

theorem regWrite_status (v : Word) (s : State) : regWrite 0x05 v s = writeStatus v s := rfl

theorem regWrite_arg0 (v : Word) (s : State) :
    regWrite 0x06 v s = if s.busy then dropWrite s else answer .ok { s with arg0 := v } := rfl

theorem regWrite_keyLen (v : Word) (s : State) :
    regWrite 0x07 v s = if s.busy then dropWrite s else answer .ok { s with keyLen := v } := rfl

theorem regWrite_imgLen (v : Word) (s : State) :
    regWrite 0x08 v s = if s.busy then dropWrite s else answer .ok { s with imgLen := v } := rfl

theorem regWrite_readOnly {r : Nat} (v : Word) (s : State) (h : r ∈ readOnlyNumbers) :
    regWrite r v s = answer .error s := by
  have all : ∀ r ∈ readOnlyNumbers, regWrite r v s = answer .error s := by
    simp [readOnlyNumbers, regWrite, regOf]
  exact all r h

theorem regWrite_unassigned {r : Nat} (v : Word) (s : State) (h : 18 ≤ r) : regWrite r v s = answer .error s := by
  simp [regWrite, regOf_eq_none h]

/-- Every register number: one of the five a write acts on, a read-only one, or unassigned. -/
theorem regNumber_cases (r : Nat) :
    (r = 0x04 ∨ r = 0x05 ∨ r = 0x06 ∨ r = 0x07 ∨ r = 0x08) ∨ r ∈ readOnlyNumbers ∨ 18 ≤ r := by
  simp only [readOnlyNumbers, List.mem_cons, List.not_mem_nil, or_false]
  omega

/-! ### What a transaction can do -/

/-- The write of a transaction that BUSY = 0 lets through, before its answer (10_state.md R41, R42, R45). -/
inductive HostWrite (s : State) : State → Prop
  | cmd (w : Word) : HostWrite s (acceptCommand w s)
  | arg0 (v : Word) : HostWrite s { s with arg0 := v }
  | keyLen (v : Word) : HostWrite s { s with keyLen := v }
  | imgLen (v : Word) : HostWrite s { s with imgLen := v }
  | byte {buf : Buf} {o : Nat} (b : Byte) (h : o < bufSize s buf) : HostWrite s (storeByte buf o b s)

/-- Nothing changes but BUSY_WRITE, the answer and the draw counter. -/
def OnlyAnswers (s t : State) : Prop := ∃ bw r n, t = { s with busyWrite := bw, response := r, draws := n }

theorem onlyAnswers_answer (r : Response) (s : State) : OnlyAnswers s (answer r s) := ⟨_, _, _, rfl⟩

theorem onlyAnswers_dropWrite (s : State) : OnlyAnswers s (dropWrite s) := ⟨_, _, _, rfl⟩

theorem onlyAnswers_writeStatus (v : Word) (s : State) : OnlyAnswers s (writeStatus v s) := ⟨_, _, _, rfl⟩

theorem onlyAnswers_regRead (r : Nat) (s : State) : OnlyAnswers s (regRead r s) := by
  unfold regRead
  split
  · exact onlyAnswers_answer _ s
  · exact onlyAnswers_answer _ s

theorem onlyAnswers_bufRead (buf : Buf) (o : Nat) (s : State) : OnlyAnswers s (bufRead buf o s) := by
  unfold bufRead
  split
  · exact onlyAnswers_answer _ s
  · split
    · exact onlyAnswers_answer _ s
    · exact ⟨_, _, _, rfl⟩

/-- What a transaction does: it only answers, or BUSY = 0 and it writes. -/
def HostEffect (s t : State) : Prop :=
  OnlyAnswers s t ∨ (s.busy = false ∧ ∃ s', HostWrite s s' ∧ t = answer .ok s')

/-- A write that waits for BUSY = 0 is dropped or takes place. -/
theorem hostEffect_of_guard {s s' : State} (h : HostWrite s s') :
    HostEffect s (if s.busy then dropWrite s else answer .ok s') := by
  cases hb : s.busy with
  | true => exact .inl (onlyAnswers_dropWrite s)
  | false => exact .inr ⟨hb, s', h, rfl⟩

theorem hostEffect_regWrite (r : Nat) (v : Word) (s : State) : HostEffect s (regWrite r v s) := by
  rcases regNumber_cases r with (rfl | rfl | rfl | rfl | rfl) | h | h
  · exact hostEffect_of_guard (.cmd v)
  · exact .inl (onlyAnswers_writeStatus v s)
  · exact hostEffect_of_guard (.arg0 v)
  · exact hostEffect_of_guard (.keyLen v)
  · exact hostEffect_of_guard (.imgLen v)
  · rw [regWrite_readOnly v s h]; exact .inl (onlyAnswers_answer _ s)
  · rw [regWrite_unassigned v s h]; exact .inl (onlyAnswers_answer _ s)

theorem hostEffect_bufWrite (buf : Buf) (o : Nat) (b : Byte) (s : State) : HostEffect s (bufWrite buf o b s) := by
  unfold bufWrite
  split
  · exact .inl (onlyAnswers_answer _ s)
  · next h => exact hostEffect_of_guard (.byte b (Nat.lt_of_not_le h))

theorem hostEffect_hostTxn (x : Txn) (s : State) : HostEffect s (hostTxn x s) := by
  cases x with
  | regRead r => exact .inl (onlyAnswers_regRead r s)
  | regWrite r v => exact hostEffect_regWrite r v s
  | bufRead buf o => exact .inl (onlyAnswers_bufRead buf o s)
  | bufWrite buf o b => exact hostEffect_bufWrite buf o b s

theorem onlyAnswers_of_busy {s : State} (x : Txn) (h : s.busy = true) : OnlyAnswers s (hostTxn x s) := by
  rcases hostEffect_hostTxn x s with h' | ⟨hb, -⟩
  · exact h'
  · rw [h] at hb; cases hb

/-- Settles O30, by induction on the transactions: while BUSY = 1 each of them only answers, and BUSY stays 1. -/
theorem hostChangesNothingWhileBusy : Obligations.HostChangesNothingWhileBusy := by
  intro ts
  induction ts with
  | nil => exact fun s _ => ⟨s.busyWrite, s.response, s.draws, rfl⟩
  | cons x ts ih =>
    intro s hb
    obtain ⟨bw, r, n, hx⟩ := onlyAnswers_of_busy x hb
    obtain ⟨bw', r', n', hts⟩ := ih { s with busyWrite := bw, response := r, draws := n } hb
    exact ⟨bw', r', n', by rw [List.foldl_cons, hx, hts]⟩

/-! ### The transactions one by one -/

/-- Settles O26: the equation of each register's write, in both cases of BUSY. -/
theorem registerWritesFollowTheAccessKinds : Obligations.RegisterWritesFollowTheAccessKinds := by
  intro s v
  refine ⟨fun hb => ?_, fun hb r hr => ?_, ?_, fun r hr => regWrite_readOnly v s hr⟩
  · have hidle : ¬s.busy = true := Bool.eq_false_iff.1 hb
    exact ⟨(regWrite_arg0 v s).trans (if_neg hidle), (regWrite_keyLen v s).trans (if_neg hidle),
      (regWrite_imgLen v s).trans (if_neg hidle)⟩
  · simp only [List.mem_cons, List.not_mem_nil, or_false] at hr
    rcases hr with rfl | rfl | rfl
    · exact (regWrite_arg0 v s).trans (if_pos hb)
    · exact (regWrite_keyLen v s).trans (if_pos hb)
    · exact (regWrite_imgLen v s).trans (if_pos hb)
  · rw [hostTxn, regWrite_status, writeStatus]
    cases v.getLsbD 3 <;> simp [answer]

/-- Settles O27: the equation of a write of CMD, in both cases of BUSY. -/
theorem commandWordIsAcceptedOrDropped : Obligations.CommandWordIsAcceptedOrDropped := by
  intro s w
  exact ⟨fun hb => (regWrite_cmd w s).trans (if_neg (Bool.eq_false_iff.1 hb)),
    fun hb => (regWrite_cmd w s).trans (if_pos hb)⟩

theorem maxImageBytes_eq (s : State) : maxImageBytes s = 25 + (s.maxBitsR.toNat + 7) / 8 := Nat.add_comm _ _

/-- Settles O25: the eighteen numbers one by one, and no register from 18 up. -/
theorem registerReadsAnswerTheRegisterMap : Obligations.RegisterReadsAnswerTheRegisterMap := by
  intro s r
  constructor
  · intro hr
    rw [← maxImageBytes_eq]
    interval_cases r <;> exact ⟨_, rfl, rfl⟩
  · intro hr
    refine ⟨?_, fun v => regWrite_unassigned v s hr⟩
    rw [hostTxn, regRead, regOf_eq_none hr]; rfl

theorem bufRead_of_size_le {buf : Buf} {o : Nat} {s : State} (h : bufSize s buf ≤ o) :
    bufRead buf o s = answer .error s := if_pos h

theorem bufRead_of_held {buf : Buf} {o : Nat} {s : State} {b : Byte} (h : o < bufSize s buf)
    (hb : (bufMem s buf).read o = some b) : bufRead buf o s = answer (.okByte b) s := by
  simp [bufRead, h, hb]

theorem bufRead_of_unwritten {buf : Buf} {o : Nat} {s : State} (h : o < bufSize s buf)
    (hb : (bufMem s buf).read o = none) :
    bufRead buf o s = answer (.okByte (Config.freeByte s.draws)) { s with draws := s.draws + 1 } := by
  simp [bufRead, h, hb]

theorem bufWrite_of_size_le {buf : Buf} {o : Nat} {s : State} (b : Byte) (h : bufSize s buf ≤ o) :
    bufWrite buf o b s = answer .error s := if_pos h

theorem bufWrite_of_busy {buf : Buf} {o : Nat} {s : State} (b : Byte) (h : o < bufSize s buf) (hb : s.busy = true) :
    bufWrite buf o b s = dropWrite s := by
  simp [bufWrite, h, hb]

theorem bufWrite_of_idle {buf : Buf} {o : Nat} {s : State} (b : Byte) (h : o < bufSize s buf) (hb : s.busy = false) :
    bufWrite buf o b s = answer .ok (storeByte buf o b s) := by
  simp [bufWrite, h, hb]

/-- Settles O28: the three outcomes of a buffer read, for both buffers. -/
theorem bufferReadsAnswerTheByteOrADraw : Obligations.BufferReadsAnswerTheByteOrADraw := by
  intro s buf o
  rw [← maxImageBytes_eq]
  cases buf with
  | key => exact ⟨bufRead_of_size_le (buf := .key), fun h b hb => bufRead_of_held (buf := .key) h hb,
      bufRead_of_unwritten (buf := .key)⟩
  | img => exact ⟨bufRead_of_size_le (buf := .img), fun h b hb => bufRead_of_held (buf := .img) h hb,
      bufRead_of_unwritten (buf := .img)⟩

/-- Settles O29: the three outcomes of a buffer write, for both buffers; the new memory is the written one. -/
theorem bufferWritesStoreOneByte : Obligations.BufferWritesStoreOneByte := by
  intro s buf o b
  rw [← maxImageBytes_eq]
  cases buf with
  | key => exact ⟨bufWrite_of_size_le (buf := .key) b, bufWrite_of_busy (buf := .key) b, fun h hb =>
      ⟨s.key.write o b, bufWrite_of_idle (buf := .key) b h hb, Memory.read_write_same _ _ _,
        fun a ha => Memory.read_write_other _ _ ha⟩⟩
  | img => exact ⟨bufWrite_of_size_le (buf := .img) b, bufWrite_of_busy (buf := .img) b, fun h hb =>
      ⟨s.img.write o b, bufWrite_of_idle (buf := .img) b h hb, Memory.read_write_same _ _ _,
        fun a ha => Memory.read_write_other _ _ ha⟩⟩

/-! ### STATUS and CONFIG bit by bit -/

/-- An `n`-bit field at position `k` of a 64-bit register: its own bits from `k` to `k + n - 1`, and 0 elsewhere. -/
theorem getLsbD_field {n : Nat} (x : BitVec n) (k : Nat) {p : Nat} (hp : p < 64) :
    (x.setWidth 64 <<< k).getLsbD p = if k ≤ p ∧ p < k + n then x.getLsbD (p - k) else false := by
  rw [BitVec.getLsbD_shiftLeft, BitVec.getLsbD_setWidth, decide_eq_true hp, decide_eq_true (by omega : p - k < 64)]
  by_cases hlow : p < k
  · simp [hlow]
  by_cases hhigh : p < k + n
  · simp [hlow, hhigh, Nat.le_of_not_lt hlow]
  · simp [hhigh, BitVec.getLsbD_of_ge x (p - k) (by omega)]

theorem getLsbD_flagAt (b : Bool) (k : Nat) {p : Nat} (hp : p < 64) :
    (flagAt b k).getLsbD p = if p = k then b else false := by
  rw [flagAt, getLsbD_field _ _ hp]
  by_cases h : p = k
  · subst h; simp
  · rw [if_neg (by omega), if_neg h]

/-- Settles O23: the four flags, then the two fields, which do not overlap. -/
theorem statusFieldsStandWhereR29Says : Obligations.StatusFieldsStandWhereR29Says := by
  intro s p hp
  simp only [statusWord, BitVec.getLsbD_or, getLsbD_flagAt _ _ hp, getLsbD_field _ _ hp]
  obtain rfl | rfl | rfl | rfl | hflag : p = 0 ∨ p = 1 ∨ p = 2 ∨ p = 3 ∨ 4 ≤ p := by omega
  · simp
  · simp
  · simp
  · simp
  obtain ⟨h0, h1, h2, h3⟩ : p ≠ 0 ∧ p ≠ 1 ∧ p ≠ 2 ∧ p ≠ 3 := by omega
  simp only [h0, h1, h2, h3, if_false, Bool.false_or]
  by_cases hcode : p ≤ 11
  · simp [show ¬16 ≤ p by omega, show p < 8 + 4 by omega, hcode]
  · simp [show ¬p < 8 + 4 by omega, hcode, Nat.lt_succ_iff]

/-- Settles O24: the two flags, then the mode byte. -/
theorem configFieldsStandWhereR31Says : Obligations.ConfigFieldsStandWhereR31Says := by
  intro s p hp
  simp only [configWord, BitVec.getLsbD_or, getLsbD_flagAt _ _ hp, getLsbD_field _ _ hp]
  obtain rfl | rfl | hflag : p = 0 ∨ p = 1 ∨ 2 ≤ p := by omega
  · simp
  · simp
  · simp [show ¬p = 0 by omega, show ¬p = 1 by omega, Nat.lt_succ_iff]

/-! ### The invariants of R39 -/

theorem rules39_resetWith (maxBits maxKeyBytes : Word) : Rules39 (State.resetWith maxBits maxKeyBytes) where
  filter_has_store := fun h => absurd h (by simp [State.resetWith])
  filter_counts := fun h => absurd h (by simp [State.resetWith])
  store_fits := fun h => absurd h (by simp [State.resetWith])
  no_filter := fun _ => ⟨rfl, rfl⟩
  mode_legal := .inl rfl
  no_store := fun _ => rfl
  pending_busy := iff_of_true rfl rfl
  bits_held := fun h => absurd h (by simp [State.resetWith])

theorem rules39_resetEvent (s : State) : Rules39 (resetEvent s) :=
  { rules39_resetWith s.maxBitsR s.maxKeyR with }

theorem Rules39.of_schedule {s : State} (h : Rules39 s) (l : List Turn) : Rules39 { s with schedule := l } :=
  { h with }

theorem Rules39.of_onlyAnswers {s t : State} (h : Rules39 s) (ht : OnlyAnswers s t) : Rules39 t := by
  obtain ⟨bw, r, n, rfl⟩ := ht
  exact { h with }

theorem Rules39.of_hostWrite {s s' : State} (h : Rules39 s) (hw : HostWrite s s') : Rules39 s' := by
  cases hw with
  | cmd w => exact { h with pending_busy := by simp }
  | arg0 v => exact { h with }
  | keyLen v => exact { h with }
  | imgLen v => exact { h with }
  | @byte buf o b => cases buf <;> exact { h with }

theorem Rules39.of_hostTxn {s : State} (h : Rules39 s) (x : Txn) : Rules39 (hostTxn x s) := by
  rcases hostEffect_hostTxn x s with ht | ⟨-, s', hw, ht⟩
  · exact h.of_onlyAnswers ht
  · rw [ht]; exact (h.of_hostWrite hw).of_onlyAnswers (onlyAnswers_answer _ _)

theorem Rules39.of_finish {s : State} (h : Rules39 s) (e : Option CmdError) : Rules39 (finish e s) :=
  { h with pending_busy := by simp }

/-- Bits are assigned in place: the store keeps its size, and its bytes their values. -/
theorem Rules39.of_bitmem {s : State} {m : Memory} (h : Rules39 s) (hm : SameBytesHeld s.bitmem m) :
    Rules39 { s with bitmem := m } :=
  { h with bits_held := fun hv b hb => (hm.held b).trans (h.bits_held hv b hb) }

theorem installStore_held {s : State} {c : Word} {B : List Byte} {k : Word} {mode : Byte} {filter : Bool}
    (hB : B.length = nbytes c.toNat) {b : Nat} (hb : b < nbytes c.toNat) :
    ((installStore c B k mode filter s).bitmem.read b).isSome = true := by
  rw [installStore_bitmem, Memory.read_writeBytes, if_pos (by omega), List.getElem?_eq_getElem (by omega)]
  rfl

theorem Rules39.of_installStore {s : State} {c : Word} {B : List Byte} {k : Word} {mode : Byte} {filter : Bool}
    (h : Rules39 s) (hi : Installable s c B k mode filter) : Rules39 (installStore c B k mode filter s) where
  filter_has_store := fun _ => rfl
  filter_counts := hi.filter_counts
  store_fits := fun _ => hi.fits
  no_filter := hi.no_filter
  mode_legal := hi.mode_legal
  no_store := fun h => absurd h (by simp)
  pending_busy := h.pending_busy
  bits_held := fun _ _ hb => installStore_held hi.covered hb

theorem Rules39.of_writes {i : Instr} {s s' : State} (h : Rules39 s) (hw : Writes i s s') : Rules39 s' := by
  cases hw with
  | store _ hi => exact h.of_installStore hi
  | bit _ hm => exact h.of_bitmem hm
  | bitRead r => exact { h with }
  | hashes K => exact { h with }
  | hashesAndResult _ K r => exact { h with }
  | insertion K r hm => exact { h.of_bitmem hm with }
  | image => exact { h with }

theorem Rules39.of_engineStep {s t : State} (h : Rules39 s) (ht : engineStep s = .next t) : Rules39 t := by
  rcases engineStep_next_writes ht with ⟨e, rfl⟩ | ⟨i, s', hw, rfl⟩
  · exact h.of_finish _
  · exact (h.of_writes hw).of_finish _

/-- Settles O21: R39 holds after reset, and each of the four things a step can do keeps it. -/
theorem stepKeepsTheInvariantsOfR39 : Obligations.StepKeepsTheInvariantsOfR39 := by
  refine ⟨rules39_resetWith _ _, fun s t h hstep => ?_⟩
  obtain ⟨u, ⟨l, rfl⟩, ht | rfl | ⟨x, rfl⟩ | rfl⟩ := step_next_cases hstep
  · exact (h.of_schedule l).of_engineStep ht
  · exact h.of_schedule l
  · exact (h.of_schedule l).of_hostTxn x
  · exact rules39_resetEvent _

/-! ### The rest of the invariant -/

theorem wellKept_resetEvent {s : State} (h : WellKept s) : WellKept (resetEvent s) where
  params := h.params
  key_form := List.Pairwise.nil
  img_form := List.Pairwise.nil
  bitmem_form := List.Pairwise.nil
  key_inside := fun _ hc => absurd hc List.not_mem_nil
  img_inside := fun _ hc => absurd hc List.not_mem_nil
  bitmem_inside := fun _ hc => absurd hc List.not_mem_nil
  pending_is_cmd := fun _ h => by cases h
  busy_not_done := fun _ => rfl
  err_iff := by simp [resetEvent, State.resetWith]
  code_produced := by simp [resetEvent, State.resetWith, producedCodes]
  limit_zero := fun _ => rfl
  hashes_32 := by simp [resetEvent, State.resetWith]

theorem WellKept.of_schedule {s : State} (h : WellKept s) (l : List Turn) : WellKept { s with schedule := l } :=
  { h with }

theorem WellKept.of_onlyAnswers {s t : State} (h : WellKept s) (ht : OnlyAnswers s t) : WellKept t := by
  obtain ⟨bw, r, n, rfl⟩ := ht
  exact { h with }

theorem WellKept.of_hostWrite {s s' : State} (h : WellKept s) (hw : HostWrite s s') : WellKept s' := by
  cases hw with
  | cmd w => exact { h with pending_is_cmd := fun v hv => by simpa using hv, busy_not_done := fun _ => rfl }
  | arg0 v => exact { h with }
  | keyLen v => exact { h with }
  | imgLen v => exact { h with }
  | @byte buf o b ho =>
    cases buf with
    | key => exact { h with key_form := Memory.wf_write o b h.key_form, key_inside := Inside_write b h.key_inside ho }
    | img => exact { h with img_form := Memory.wf_write o b h.img_form, img_inside := Inside_write b h.img_inside ho }

theorem WellKept.of_hostTxn {s : State} (h : WellKept s) (x : Txn) : WellKept (hostTxn x s) := by
  rcases hostEffect_hostTxn x s with ht | ⟨-, s', hw, ht⟩
  · exact h.of_onlyAnswers ht
  · rw [ht]; exact (h.of_hostWrite hw).of_onlyAnswers (onlyAnswers_answer _ _)

theorem WellKept.of_finish {s : State} (h : WellKept s) (e : Option CmdError) : WellKept (finish e s) :=
  { h with
    pending_is_cmd := fun _ h => by cases h
    busy_not_done := fun h => by cases h
    err_iff := finish_err_iff e s
    code_produced := finish_codes_produced e s
    limit_zero := fun h => (finish_errLimit_eq e s).trans (if_neg h) }

theorem WellKept.of_bitmem {s : State} {m : Memory} (h : WellKept s) (hm : SameBytesHeld s.bitmem m) :
    WellKept { s with bitmem := m } :=
  { h with bitmem_form := hm.form h.bitmem_form, bitmem_inside := hm.inside _ h.bitmem_inside }

theorem WellKept.of_installStore {s : State} {c : Word} {B : List Byte} {k : Word} {mode : Byte} {filter : Bool}
    (h : WellKept s) (hi : Installable s c B k mode filter) : WellKept (installStore c B k mode filter s) :=
  have hB : 0 + B.length ≤ maxBytes s := by rw [Nat.zero_add, hi.covered]; exact nbytes_mono hi.fits
  { h with
    bitmem_form := Memory.wf_writeBytes 0 B h.bitmem_form
    bitmem_inside := Inside_writeBytes h.bitmem_inside hB }

/-- MUR and FNV take 32-bit values (10_state.md R37). -/
theorem WellKept.of_writeHashes {s : State} (h : WellKept s) (K : List Byte) : WellKept (writeHashes K s) :=
  have zext : ∀ x : HashWord, (x.setWidth 64).toNat < 2 ^ 32 := fun x => by
    rw [BitVec.toNat_setWidth_of_le (by decide)]; exact x.isLt
  { h with hashes_32 := ⟨zext _, zext _⟩ }

theorem WellKept.of_storeImage {s : State} {I : List Byte} (h : WellKept s) (hI : I.length ≤ maxImageBytes s) :
    WellKept (storeImage I s) :=
  { h with
    img_form := Memory.wf_writeBytes 0 I h.img_form
    img_inside := Inside_writeBytes h.img_inside (by rw [Nat.zero_add]; exact hI) }

/-- The image of a store that R39 allows fits in IMG. -/
theorem image_fits {s : State} {I : List Byte} (hr : Rules39 s) (hs : s.bsValid = true ∨ s.engValid = true)
    (hI : I.length ≤ nbytes s.bitCount.toNat + 25) : I.length ≤ maxImageBytes s := by
  have hstore : s.bsValid = true := hs.elim id hr.filter_has_store
  have hfits : nbytes s.bitCount.toNat ≤ maxBytes s := nbytes_mono (hr.store_fits hstore)
  exact hI.trans (Nat.add_le_add_right hfits 25)

theorem Inv.wellKept_of_writes {i : Instr} {s s' : State} (h : Inv s) (hw : Writes i s s') : WellKept s' := by
  have hk := h.kept
  cases hw with
  | store _ hi => exact hk.of_installStore hi
  | bit _ hm => exact hk.of_bitmem hm
  | bitRead r => exact { hk with }
  | hashes K => exact hk.of_writeHashes K
  | hashesAndResult _ K r => exact { hk.of_writeHashes K with }
  | insertion K r hm => exact { (hk.of_bitmem hm).of_writeHashes K with }
  | image _ hs hI => exact hk.of_storeImage (image_fits h.rules hs hI)

theorem Inv.wellKept_of_engineStep {s t : State} (h : Inv s) (ht : engineStep s = .next t) : WellKept t := by
  rcases engineStep_next_writes ht with ⟨e, rfl⟩ | ⟨i, s', hw, rfl⟩
  · exact h.kept.of_finish _
  · exact (h.wellKept_of_writes hw).of_finish _

/-- Settles O22: each of the four things a step can do keeps it; R39 gives the store's size, for the image of a save. -/
theorem stepKeepsBuffersAndStatusLegal : Obligations.StepKeepsBuffersAndStatusLegal := by
  intro s t h hstep
  obtain ⟨u, ⟨l, rfl⟩, ht | rfl | ⟨x, rfl⟩ | rfl⟩ := step_next_cases hstep
  · exact Inv.wellKept_of_engineStep ⟨h.rules.of_schedule l, h.kept.of_schedule l⟩ ht
  · exact h.kept.of_schedule l
  · exact (h.kept.of_schedule l).of_hostTxn x
  · exact wellKept_resetEvent (h.kept.of_schedule l)

/-- Every step keeps the invariant. -/
theorem Inv.of_step {s t : State} (h : Inv s) (hstep : step s = .next t) : Inv t :=
  ⟨stepKeepsTheInvariantsOfR39.2 s t h.rules hstep, stepKeepsBuffersAndStatusLegal s t h hstep⟩

/-! ### Progress -/

/-- The engine's step of a pending command completes it, or stops at a byte without a value. -/
theorem engineStep_completes {s : State} (h : Rules39 s) (hb : s.busy = true) :
    (∃ t, engineStep s = .next t ∧ t.busy = false) ∨ ∃ sp o, engineStep s = .fault (.unwrittenByte sp o) := by
  cases hout : engineStep s with
  | next t =>
    obtain ⟨hidle, -⟩ := everyCompletionReportsLegally s t (.inl hout)
    exact .inl ⟨t, rfl, hidle⟩
  | refused r => exact absurd hout engineStep_not_refused
  | fault f =>
    refine .inr ?_
    unfold engineStep at hout
    split at hout
    · next hp => rw [h.pending_busy.1 hp] at hb; cases hb
    · split at hout
      · cases hout
      · rcases exec_fault_cases hout with ⟨-, o, -, -, rfl⟩ | ⟨-, o, -, -, rfl⟩ | ⟨o, -, -, rfl⟩
        · exact ⟨_, o, rfl⟩
        · exact ⟨_, o, rfl⟩
        · exact ⟨_, o, rfl⟩

theorem runSteps_succ_of_next {s t : State} (h : step s = .next t) (n : Nat) : runSteps (n + 1) s = runSteps n t := by
  rw [runSteps, h]

/-- `n` steps complete the pending command or discard it, or the run stops at a byte without a value. -/
def Settled (n : Nat) (s : State) : Prop :=
  (∃ t, runSteps n s = .next t ∧ t.busy = false) ∨ ∃ sp o, runSteps n s = .fault (.unwrittenByte sp o)

theorem settled_succ {s t : State} {n : Nat} (h : step s = .next t) (ht : Settled n t) : Settled (n + 1) s := by
  rwa [Settled, runSteps_succ_of_next h]

/-- A step that is the engine's turn settles the pending command. -/
theorem settled_of_engineTurn {s u : State} (hu : Rules39 u) (hb : u.busy = true) (h : step s = engineTurn u) :
    Settled 1 s := by
  rw [engineTurn_of_busy hb] at h
  rcases engineStep_completes hu hb with ⟨t, ht, hidle⟩ | ⟨sp, o, hf⟩
  · exact settled_succ (h.trans ht) (.inl ⟨t, rfl, hidle⟩)
  · exact .inr ⟨sp, o, by rw [runSteps, h, hf]⟩

/-- By induction on the schedule: the engine's turn settles the command, a reset discards it, and a transaction leaves it pending
with one turn less to come. -/
theorem settled_within_schedule (l : List Turn) : ∀ {s : State}, Rules39 s → s.busy = true → s.schedule = l →
    ∃ n ≤ l.length + 1, Settled n s := by
  induction l with
  | nil =>
    intro s h hb hl
    exact ⟨1, le_rfl, settled_of_engineTurn h hb (step_of_nil hl)⟩
  | cons x rest ih =>
    intro s h hb hl
    have hstep := step_of_cons hl
    have hu := h.of_schedule rest
    cases x with
    | engine => exact ⟨1, Nat.le_add_left _ _, settled_of_engineTurn hu hb hstep⟩
    | reset => exact ⟨1, Nat.le_add_left _ _, settled_succ hstep (.inl ⟨_, rfl, rfl⟩)⟩
    | host x =>
      obtain ⟨bw, r, k, hx⟩ := onlyAnswers_of_busy (s := { s with schedule := rest }) x hb
      have hnext : Rules39 (hostTxn x { s with schedule := rest }) := hu.of_hostTxn x
      rw [runTurn, hx] at hstep
      rw [hx] at hnext
      obtain ⟨n, hn, hsettled⟩ := ih hnext hb rfl
      exact ⟨n + 1, Nat.succ_le_succ hn, settled_succ hstep hsettled⟩

/-- Settles O11: a state of the invariant keeps R39, which the induction on its schedule carries along. -/
theorem pendingCommandIsEventuallyExecuted : Obligations.PendingCommandIsEventuallyExecuted :=
  fun s h hb => settled_within_schedule s.schedule h.rules hb rfl

end Sys2Proof.Machine
end

section
/-! PROOFS. 20_memory.md: the one check of a bit index that every accessor makes (R65). -/

namespace Sys2Proof.Machine

/-- The accessors of a single bit are the commands that can raise BOUNDS_ERROR at all. -/
theorem bounds_mem_errorsOf_iff {i : Instr} : .bounds ∈ errorsOf i ↔ i ∈ [Instr.bitSet0, .bitSet1, .bitGet] := by
  cases i <;> decide

theorem setBit_not_raise {m : Memory} {i : Nat} {v : Bool} {e : CmdError} : setBit m i v ≠ .error (.raise e) :=
  fun h => Stop.noConfusion (setBit_error h).2

theorem getBit_not_raise {m : Memory} {i : Nat} {e : CmdError} : getBit m i ≠ .error (.raise e) :=
  fun h => Stop.noConfusion (getBit_error h).2

/-- Every accessor checks its index first, by the same rule, and raises nothing after it. -/
theorem exec_bitAccessor {i : Instr} (hi : i ∈ [Instr.bitSet0, .bitSet1, .bitGet]) (s : State) :
    ∃ access : Nat → Except Stop State,
      exec i s = conclude s (bitOperand s >>= access) ∧ ∀ n e, access n ≠ .error (.raise e) := by
  simp only [List.mem_cons, List.not_mem_nil, or_false] at hi
  obtain rfl | rfl | rfl := hi
  · exact ⟨_, rfl, fun n e => by simp [bind_error_iff, setBit_not_raise]⟩
  · exact ⟨_, rfl, fun n e => by simp [bind_error_iff, setBit_not_raise]⟩
  · exact ⟨_, rfl, fun n e => by simp [bind_error_iff, getBit_not_raise]⟩

/-- An accessor that completes raises the error of its index check, or passes the check and completes without error. -/
theorem bitAccessor_next {i : Instr} {s t : State} (hi : i ∈ [Instr.bitSet0, .bitSet1, .bitGet]) (h : exec i s = .next t) :
    (∃ e, bitOperand s = .error (.raise e) ∧ t = finish (some e) s) ∨
      ∃ n s', bitOperand s = .ok n ∧ t = finish none s' := by
  obtain ⟨access, hexec, hquiet⟩ := exec_bitAccessor hi s
  rw [hexec] at h
  obtain ⟨s', hok, rfl⟩ | ⟨e, herr, rfl⟩ := conclude_next_iff.1 h
  · obtain ⟨n, hn, -⟩ := bind_ok_iff.1 hok
    exact .inr ⟨n, s', hn, rfl⟩
  · obtain hop | ⟨n, -, hn⟩ := bind_error_iff.1 herr
    · exact .inl ⟨e, hop, rfl⟩
    · exact absurd hn (hquiet n e)

theorem bitAccessor_errCode_eq_one_iff {i : Instr} {s t : State} (hi : i ∈ [Instr.bitSet0, .bitSet1, .bitGet])
    (h : exec i s = .next t) : t.errCode = 1 ↔ s.bsValid = true ∧ s.bitCount.toNat ≤ s.arg0.toNat := by
  obtain ⟨e, hop, rfl⟩ | ⟨n, s', hop, rfl⟩ := bitAccessor_next hi h
  · refine Iff.trans errorCode_eq_one_iff ?_
    obtain ⟨hv, he⟩ | ⟨hv, hle, he⟩ := bitOperand_error_iff.1 hop
    · cases he; simp [hv]
    · cases he; simp [hv, hle]
  · obtain ⟨-, hlt, -⟩ := bitOperand_ok_iff.1 hop
    exact iff_of_false (by simp) fun ⟨_, hle⟩ => hlt.not_ge hle

/-- Code 1 is BOUNDS_ERROR, raised on the state as it stood by a command that can raise it. -/
theorem exec_next_of_errCode_eq_one {i : Instr} {s t : State} (h : exec i s = .next t) (hcode : t.errCode = 1) :
    .bounds ∈ errorsOf i ∧ t = finish (some .bounds) s := by
  obtain ⟨e, he, rfl⟩ | ⟨s', -, rfl⟩ := exec_next h
  · obtain rfl : e = .bounds := errorCode_eq_one_iff.1 hcode
    exact ⟨he, rfl⟩
  · simp at hcode

/-- Settles O36: only an accessor can raise code 1, an accessor raises it by its index check, and its completion is the frame. -/
theorem onlyBitAccessorsRaiseBounds : Obligations.OnlyBitAccessorsRaiseBounds := by
  intro i s t h
  refine ⟨⟨fun hcode => ?_, fun ⟨hi, hbad⟩ => (bitAccessor_errCode_eq_one_iff hi h).2 hbad⟩,
    fun hcode => (exec_next_of_errCode_eq_one h hcode).2⟩
  have hi := bounds_mem_errorsOf_iff.1 (exec_next_of_errCode_eq_one h hcode).1
  exact ⟨hi, (bitAccessor_errCode_eq_one_iff hi h).1 hcode⟩

end Sys2Proof.Machine
end

section
/-! PROOFS. 30_encoding.md: the fields of a command word and its decoding (R91 to R96), the assembler (R97), and the turns of
`do` (R99). -/

namespace Sys2Proof.Machine

/-! ### The fields of a command word -/

theorem toNat_fieldsOf_opc (w : Word) : (fieldsOf w).opc.toNat = w.toNat % 2 ^ 8 := by
  simp [fieldsOf, BitVec.extractLsb'_toNat]

theorem toNat_fieldsOf_f (w : Word) : (fieldsOf w).f.toNat = w.toNat / 2 ^ 8 % 2 ^ 8 := by
  simp [fieldsOf, BitVec.extractLsb'_toNat, Nat.shiftRight_eq_div_pow]

theorem toNat_fieldsOf_rsv (w : Word) : (fieldsOf w).rsv.toNat = w.toNat / 2 ^ 16 := by
  have hlt : w.toNat / 2 ^ 16 < 2 ^ 48 := by have := w.isLt; omega
  simp only [fieldsOf, BitVec.extractLsb'_toNat, Nat.shiftRight_eq_div_pow]
  exact Nat.mod_eq_of_lt hlt

/-- The three fields make up the whole word. -/
theorem fieldsOf_injective : Function.Injective fieldsOf := by
  intro v w h
  have hopc := toNat_fieldsOf_opc v
  have hf := toNat_fieldsOf_f v
  have hrsv := toNat_fieldsOf_rsv v
  rw [h, toNat_fieldsOf_opc] at hopc
  rw [h, toNat_fieldsOf_f] at hf
  rw [h, toNat_fieldsOf_rsv] at hrsv
  exact BitVec.eq_of_toNat_eq (by omega)

/-! ### The opcode map -/

theorem opcodeOf_eq_some_iff {b : Byte} {op : Opcode} : opcodeOf b = some op ↔ b = opcodeByte op := by
  constructor
  · fun_cases opcodeOf b with
    | case13 => simp
    | _ => rintro ⟨⟩; assumption
  · rintro rfl
    cases op <;> rfl

theorem mem_legalOpcodes_iff {b : Byte} : b ∈ legalOpcodes ↔ ∃ op, opcodeOf b = some op := by
  simp only [opcodeOf_eq_some_iff]
  constructor
  · intro h
    have hall : legalOpcodes = [Opcode.BS_NEW, .BIT_SET, .BIT_GET, .HASH, .INDEX, .NEW, .INSERT, .LOOKUP, .BS_SAVE, .BS_LOAD,
      .SAVE, .LOAD].map opcodeByte := rfl
    rw [hall] at h
    obtain ⟨op, -, rfl⟩ := List.mem_map.1 h
    exact ⟨op, rfl⟩
  · rintro ⟨op, rfl⟩
    cases op <;> decide

/-- The twelve operation codes as numbers (30_encoding.md R95). -/
theorem toNat_mem_legalOpcodes_iff {b : Byte} :
    b.toNat ∈ [0x10, 0x11, 0x12, 0x20, 0x21, 0x30, 0x31, 0x32, 0x40, 0x41, 0x42, 0x43] ↔ ∃ op, opcodeOf b = some op :=
  (List.mem_map_of_injective (l := legalOpcodes) (fun _ _ => BitVec.eq_of_toNat_eq)).trans mem_legalOpcodes_iff

theorem byte_le_one_iff {b : Byte} : b.toNat ≤ 1 ↔ b = 0 ∨ b = 1 :=
  ⟨byte_le_one, by rintro (rfl | rfl) <;> decide⟩

/-- Which F are not legal: above 1 for BIT_SET and NEW, above 0 for the others (30_encoding.md R95). -/
theorem instrOf_eq_none_iff {b f : Byte} {op : Opcode} (hop : opcodeOf b = some op) :
    instrOf op f = none ↔ if b.toNat = 0x11 ∨ b.toNat = 0x30 then 1 < f.toNat else f.toNat ≠ 0 := by
  have hone : ∀ i : Instr, (if f = 0 then some i else none) = none ↔ f.toNat ≠ 0 := fun i =>
    (by simp : _ ↔ f ≠ 0).trans (not_congr BitVec.toNat_inj.symm)
  have htwo : ∀ i j : Instr, (if f = 0 then some i else if f = 1 then some j else none) = none ↔ 1 < f.toNat := fun i j => by
    rw [← not_le, byte_le_one_iff]
    split_ifs <;> simp_all
  rw [opcodeOf_eq_some_iff.1 hop]
  cases op
  case BIT_SET => exact htwo _ _
  case NEW => exact htwo _ _
  all_goals exact hone _

/-- The word of an instruction has the fields it was read from, and nothing in the reserved bits. -/
theorem fieldsOf_encode_of_instrOf {op : Opcode} {f : Byte} {i : Instr} (h : instrOf op f = some i) :
    fieldsOf (encode i) = { opc := opcodeByte op, f := f, rsv := 0 } := by
  have hf : f.toNat ≤ 1 := by
    by_contra hf
    have hnone : instrOf op f = none := (instrOf_eq_none_iff (opcodeOf_eq_some_iff.2 rfl)).2 (by split <;> omega)
    rw [hnone] at h
    cases h
  rcases byte_le_one hf with rfl | rfl
  · cases op <;> cases h <;> rfl
  · cases op <;> cases h <;> rfl

/-! ### Decode -/

/-- Which outcome decode has, by what each of its three checks finds (30_encoding.md R95). -/
theorem decode_outcome_iff (w : Word) :
    (decode w = .error .reservedBits ↔ (fieldsOf w).rsv ≠ 0) ∧
    (decode w = .error .reservedOpcode ↔ (fieldsOf w).rsv = 0 ∧ opcodeOf (fieldsOf w).opc = none) ∧
    (decode w = .error .illegalF ↔
      (fieldsOf w).rsv = 0 ∧ ∃ op, opcodeOf (fieldsOf w).opc = some op ∧ instrOf op (fieldsOf w).f = none) ∧
    ∀ i, decode w = .ok i ↔
      (fieldsOf w).rsv = 0 ∧ ∃ op, opcodeOf (fieldsOf w).opc = some op ∧ instrOf op (fieldsOf w).f = some i := by
  by_cases hrsv : (fieldsOf w).rsv = 0#48
  · cases hopc : opcodeOf (fieldsOf w).opc with
    | none => simp [decode, hrsv, hopc]
    | some op =>
      cases hf : instrOf op (fieldsOf w).f with
      | none => simp [decode, hrsv, hopc, hf]
      | some i => simp [decode, hrsv, hopc, hf]
  · simp [decode, hrsv]

theorem eq_encode_of_decode {w : Word} {i : Instr} (h : decode w = .ok i) : w = encode i := by
  obtain ⟨-, -, -, hok⟩ := decode_outcome_iff w
  obtain ⟨hrsv, op, hopc, hf⟩ := (hok i).1 h
  refine fieldsOf_injective ?_
  rw [fieldsOf_encode_of_instrOf hf, ← opcodeOf_eq_some_iff.1 hopc, ← hrsv]

/-- Settles O1: the fields of a word determine it, and those of a word that decodes are those of its instruction's word. -/
theorem decodeAndEncodeAgreeOnTheFourteenWords : Obligations.DecodeAndEncodeAgreeOnTheFourteenWords :=
  ⟨fun _ i => ⟨eq_encode_of_decode, fun h => h ▸ decode_encode i⟩, rfl⟩

theorem engineStep_of_illegal {s : State} {w : Word} {e : IllegalCommand} (hp : s.pending = some w)
    (hd : decode w = .error e) : engineStep s = .next (finish (some (.illegal e)) s) := by
  simp [engineStep, hp, hd, raise]

/-- Settles O3: what the three checks find, told by the numbers of the fields, and the equation of the engine step for each outcome. -/
theorem decodeRejectsInOrder : Obligations.DecodeRejectsInOrder := by
  intro w
  obtain ⟨hbits, hopcode, hillegal, -⟩ := decode_outcome_iff w
  have hzero : (fieldsOf w).rsv = 0 ↔ (fieldsOf w).rsv.toNat = 0 := BitVec.toNat_eq
  rw [hbits, hopcode, hillegal, hzero, ← toNat_fieldsOf_opc, ← toNat_fieldsOf_f, ← toNat_fieldsOf_rsv]
  intro rsv opc f opcodes badF
  have hmem : opc ∈ opcodes ↔ ∃ op, opcodeOf (fieldsOf w).opc = some op := toNat_mem_legalOpcodes_iff
  rw [hmem]
  refine ⟨not_congr hzero, ?_, ?_, fun s hp => ⟨fun i => engineStep_of_decode hp, fun e => engineStep_of_illegal hp⟩⟩
  · rw [Option.eq_none_iff_forall_ne_some, not_exists]
  · refine and_congr_right fun _ => ⟨?_, ?_⟩
    · exact fun ⟨op, hop, hf⟩ => ⟨⟨op, hop⟩, (instrOf_eq_none_iff hop).1 hf⟩
    · exact fun ⟨⟨op, hop⟩, hf⟩ => ⟨op, hop, (instrOf_eq_none_iff hop).2 hf⟩

/-- Settles O4: a word that is no instruction's decodes to an error, and that error completes. -/
theorem everyOtherWordCompletesAsIllegal : Obligations.EveryOtherWordCompletesAsIllegal := by
  intro s w hp hw
  cases hd : decode w with
  | ok i => exact absurd (eq_encode_of_decode hd) (hw i)
  | error e =>
    have hdetail : errorDetail (.illegal e) = 1 ∨ errorDetail (.illegal e) = 2 ∨ errorDetail (.illegal e) = 3 := by
      cases e <;> decide
    exact ⟨_, hdetail, engineStep_of_illegal hp hd⟩

/-- Settles O2: the ten words are closed terms, and decode computes each. -/
theorem spelledWordsDecodeAsTheTableSays : Obligations.SpelledWordsDecodeAsTheTableSays :=
  ⟨rfl, rfl, rfl, rfl, rfl, rfl, rfl, rfl, rfl, rfl⟩

/-! ### The assembler -/

theorem assembleCommand_some_of_ne {op : Opcode} (n : Nat) (hset : op ≠ .BIT_SET) (hnew : op ≠ .NEW) :
    assembleCommand op (some n) = none := by
  cases op
  case BIT_SET => exact absurd rfl hset
  case NEW => exact absurd rfl hnew
  all_goals rfl

theorem assembleCommand_of_one_lt {op : Opcode} {n : Nat} (hn : 1 < n) : assembleCommand op (some n) = none := by
  cases op
  case BIT_SET => exact if_neg (Nat.not_le_of_lt hn)
  case NEW => exact if_neg (Nat.not_le_of_lt hn)
  all_goals rfl

theorem decode_of_assembleCommand {op : Opcode} {f : Option Nat} {w : Word} (h : assembleCommand op f = some w) :
    ∃ i, decode w = .ok i := by
  cases f with
  | none =>
    cases op
    case BIT_SET => cases h
    case NEW => cases h
    all_goals cases h; exact ⟨_, rfl⟩
  | some n =>
    have hop : op = .BIT_SET ∨ op = .NEW := by
      by_contra hop
      obtain ⟨hset, hnew⟩ := not_or.1 hop
      rw [assembleCommand_some_of_ne n hset hnew] at h
      cases h
    have hn : n ≤ 1 := by
      by_contra hn
      rw [assembleCommand_of_one_lt (Nat.lt_of_not_le hn)] at h
      cases h
    obtain rfl | rfl := Nat.le_one_iff_eq_zero_or_eq_one.1 hn
    · rcases hop with rfl | rfl <;> (cases h; exact ⟨_, rfl⟩)
    · rcases hop with rfl | rfl <;> (cases h; exact ⟨_, rfl⟩)

/-- Settles O5: an assembled word is one of the table's, and each rejection is a case of the assembler. -/
theorem assemblerMakesExactlyTheLegalWords : Obligations.AssemblerMakesExactlyTheLegalWords :=
  ⟨fun _ _ _ => decode_of_assembleCommand, rfl, fun _ => assembleCommand_some_of_ne,
    fun _ hn => ⟨assembleCommand_of_one_lt hn, assembleCommand_of_one_lt hn⟩, rfl, rfl⟩

/-! ### The turns of `do` -/

/-- Transactions of the host while a command is pending take their turns and only answer. -/
theorem runSteps_hostTurns_of_busy (xs : List Txn) {l : List Turn} : ∀ {s : State}, s.busy = true →
    s.schedule = xs.map .host ++ l →
    ∃ t, OnlyAnswers { s with schedule := l } t ∧ ∀ n, runSteps (xs.length + n) s = runSteps n t := by
  induction xs with
  | nil =>
    intro s _ hl
    obtain rfl : s.schedule = l := hl
    exact ⟨s, ⟨s.busyWrite, s.response, s.draws, rfl⟩, fun n => by rw [List.length_nil, Nat.zero_add]⟩
  | cons x xs ih =>
    intro s hb hl
    obtain ⟨bw, r, k, hx⟩ := onlyAnswers_of_busy (s := { s with schedule := xs.map .host ++ l }) x hb
    have hstep : step s = .next (hostTxn x { s with schedule := xs.map .host ++ l }) := step_of_cons hl
    rw [hx] at hstep
    obtain ⟨t, ⟨bw', r', k', ht⟩, hrun⟩ := ih (s := { s with
      schedule := xs.map .host ++ l, busyWrite := bw, response := r, draws := k }) hb rfl
    refine ⟨t, ⟨bw', r', k', ht⟩, fun n => ?_⟩
    rw [List.length_cons, Nat.add_right_comm, runSteps_succ_of_next hstep, hrun]

/-- `n` steps leave the command `w` completed, a poll answered with BUSY = 0 and the turns `rest` to come, or the run stops at a
byte without a value. -/
def DoneAfter (w : Word) (rest : List Turn) (n : Nat) (s : State) : Prop :=
  (∃ t v, runSteps n s = .next t ∧ t.schedule = rest ∧ t.cmd = w ∧ t.busy = false ∧ t.done = true ∧
    t.response = some (.okWord v) ∧ v.getLsbD 0 = false) ∨
  (∃ sp o, runSteps n s = .fault (.unwrittenByte sp o))

theorem DoneAfter.of_runSteps_eq {w : Word} {rest : List Turn} {m n : Nat} {s t : State} (h : DoneAfter w rest n t)
    (hrun : runSteps m s = runSteps n t) : DoneAfter w rest m s := by
  rwa [DoneAfter, hrun]

/-- A poll of STATUS answers bit 0 as BUSY stands. -/
theorem statusWord_getLsbD_zero (s : State) : (statusWord s).getLsbD 0 = s.busy :=
  statusFieldsStandWhereR29Says s 0 (by decide)

theorem step_wrTurn_cmd {s : State} {w : Word} {l : List Turn} (hb : s.busy = false)
    (hl : s.schedule = wrTurn .CMD w :: l) :
    step s = .next (answer .ok (acceptCommand w { s with schedule := l })) := by
  have haccept := (regWrite_cmd w { s with schedule := l }).trans (if_neg (Bool.eq_false_iff.1 hb))
  rw [step_of_cons hl, ← haccept]
  rfl

theorem step_rdTurn_status {s : State} {l : List Turn} (hl : s.schedule = rdTurn .STATUS :: l) :
    step s = .next (answer (.okWord (statusWord s)) { s with schedule := l }) :=
  step_of_cons hl

/-- The last two turns of `do`: the engine runs the command, and the poll after it finds BUSY = 0. -/
theorem doneAfter_engine_poll {s u : State} {w : Word} {i : Instr} {rest : List Turn} (hstep : step s = engineTurn u)
    (hr : Rules39 u) (hb : u.busy = true) (hp : u.pending = some w) (hd : decode w = .ok i)
    (hl : u.schedule = rdTurn .STATUS :: rest) : DoneAfter u.cmd rest 2 s := by
  rw [engineTurn_of_busy hb] at hstep
  rcases engineStep_completes hr hb with ⟨t, ht, hidle⟩ | ⟨sp, o, hf⟩
  · have hexec : exec i u = .next t := (engineStep_of_decode hp hd).symm.trans ht
    obtain ⟨-, hdone, -⟩ := everyCompletionReportsLegally u t (.inl ht)
    obtain ⟨-, -, -, hcmd, -, -, -, hsched, -⟩ := commandsNeverWriteHostOperands i u t hexec
    have hrun : runSteps 2 s = .next (answer (.okWord (statusWord t)) { t with schedule := rest }) := by
      rw [runSteps_succ_of_next (hstep.trans ht), runSteps_succ_of_next (step_rdTurn_status (hsched.trans hl)), runSteps]
    exact .inl ⟨_, _, hrun, rfl, hcmd, hidle, hdone, rfl, (statusWord_getLsbD_zero t).trans hidle⟩
  · exact .inr ⟨sp, o, by rw [runSteps, hstep, hf]⟩

/-- The turns of `do` after the write of CMD: the polls find BUSY = 1 and only answer, then the command completes. -/
theorem doneAfter_waitTurns {s : State} {w : Word} {i : Instr} {polls : Nat} {rest : List Turn} (hr : Rules39 s)
    (hb : s.busy = true) (hp : s.pending = some w) (hd : decode w = .ok i) (hl : s.schedule = waitTurns polls ++ rest) :
    DoneAfter s.cmd rest (polls + 2) s := by
  have hpolls : s.schedule = (List.replicate polls (Txn.regRead (numberOf .STATUS))).map .host ++
      .engine :: rdTurn .STATUS :: rest := by
    rw [hl, waitTurns, List.map_replicate, List.append_assoc]; rfl
  obtain ⟨t, ht, hrun⟩ := runSteps_hostTurns_of_busy _ hb hpolls
  rw [List.length_replicate] at hrun
  have hrt : Rules39 t := (hr.of_schedule _).of_onlyAnswers ht
  obtain ⟨hbt, hpt, hcmd, hlt⟩ : t.busy = true ∧ t.pending = some w ∧ t.cmd = s.cmd ∧
      t.schedule = .engine :: rdTurn .STATUS :: rest := by
    obtain ⟨bw, r, k, rfl⟩ := ht
    exact ⟨hb, hp, rfl, rfl⟩
  rw [← hcmd]
  exact (doneAfter_engine_poll (step_of_cons hlt) (hrt.of_schedule _) hbt hpt hd rfl).of_runSteps_eq (hrun 2)

/-- Settles O32: the write of CMD is accepted, which leaves the turns of `wait` to come. -/
theorem doStatementRunsItsCommand : Obligations.DoStatementRunsItsCommand := by
  intro s op f polls ts rest w hinv hb hasm hexp hl
  obtain ⟨i, hd⟩ := decode_of_assembleCommand hasm
  obtain rfl : wrTurn .CMD w :: waitTurns polls = ts := by
    rw [expand, hasm] at hexp
    exact Option.some.inj hexp
  have hlen : (wrTurn .CMD w :: waitTurns polls).length = polls + 2 + 1 := by simp [waitTurns]
  have haccept := step_wrTurn_cmd hb hl
  have hr : Rules39 (acceptCommand w { s with schedule := waitTurns polls ++ rest }) :=
    (hinv.rules.of_schedule _).of_hostWrite (.cmd w)
  have hdone := doneAfter_waitTurns (hr.of_onlyAnswers (onlyAnswers_answer .ok _)) rfl rfl hd rfl
  rw [hlen]
  exact hdone.of_runSteps_eq (runSteps_succ_of_next haccept _)

end Sys2Proof.Machine
end

section
/-! PROOFS. 40_bitstore.md: BS_NEW (R120), BIT_SET (R122) and BIT_GET (R124), with the bit-to-byte mapping of 20_memory.md R63, R64. -/

namespace Sys2Proof.Machine

/-! ### The errors of the accessors -/

/-- An error of the index check ends the accessor: nothing it does afterwards runs. -/
theorem exec_bitAccessor_of_operand_error {i : Instr} {s : State} {e : CmdError}
    (hi : i ∈ [Instr.bitSet0, .bitSet1, .bitGet]) (h : bitOperand s = .error (.raise e)) :
    exec i s = .next (finish (some e) s) := by
  obtain ⟨access, hexec, -⟩ := exec_bitAccessor hi s
  rw [hexec]
  exact conclude_of_raise (bind_error_iff.2 (.inl h))

theorem exec_bitAccessor_of_no_store {i : Instr} {s : State} (hi : i ∈ [Instr.bitSet0, .bitSet1, .bitGet])
    (hv : s.bsValid = false) : exec i s = .next (finish (some .noStore) s) :=
  exec_bitAccessor_of_operand_error hi (bitOperand_error_iff.2 (.inl ⟨hv, rfl⟩))

theorem exec_bitAccessor_of_bitCount_le {i : Instr} {s : State} (hi : i ∈ [Instr.bitSet0, .bitSet1, .bitGet])
    (hv : s.bsValid = true) (hle : s.bitCount.toNat ≤ s.arg0.toNat) : exec i s = .next (finish (some .bounds) s) :=
  exec_bitAccessor_of_operand_error hi (bitOperand_error_iff.2 (.inr ⟨hv, hle, rfl⟩))

/-! ### The addressed bit and its byte -/

theorem bitAt_of_read {m : Memory} {i : Nat} {b : Byte} (h : m.read (i / 8) = some b) :
    bitAt m i = b.getLsbD (7 - i % 8) := by
  simp [bitAt, h]

/-- The byte of every bit of the current store is held (10_state.md R39(h)). -/
theorem Rules39.bit_held {s : State} (h : Rules39 s) (hv : s.bsValid = true) {i : Nat} (hi : i < s.bitCount.toNat) :
    (s.bitmem.read (i / 8)).isSome = true :=
  h.bits_held hv _ (div_lt_nbytes hi)

theorem setWidth_ofBool_eq_ite (v : Bool) : (BitVec.ofBool v).setWidth 8 = if v then 1 else 0 := by
  cases v <;> rfl

theorem assignByteBit_eq_mask (b : Byte) (i : Nat) (v : Bool) :
    assignByteBit b i v =
      b &&& ~~~((0x80 : Byte) >>> (i % 8)) ||| (if v then 1 else 0 : Byte) <<< (7 - i % 8) := by
  rw [assignByteBit, setWidth_ofBool_eq_ite]

theorem toNat_setWidth_ofBool_getLsbD (b : Byte) (p : Nat) :
    ((BitVec.ofBool (b.getLsbD p)).setWidth 64).toNat = b.toNat / 2 ^ p % 2 := by
  rw [← Nat.toNat_testBit]
  cases h : b.toNat.testBit p <;> simp [BitVec.getLsbD, h]

theorem setWidth_ofBool_eq_one_iff (v : Bool) : (BitVec.ofBool v).setWidth 64 = 1 ↔ v = true := by
  cases v <;> decide

/-! ### BIT_SET -/

theorem bitSet_mem_accessors (v : Bool) :
    (if v then Instr.bitSet1 else .bitSet0) ∈ [Instr.bitSet0, .bitSet1, .bitGet] := by
  cases v <;> decide

/-- Both values of F have the one effect of setbit. -/
theorem exec_bitSet_of_setBit {v : Bool} {s : State} {m : Memory} (hv : s.bsValid = true)
    (hi : s.arg0.toNat < s.bitCount.toNat) (hm : setBit s.bitmem s.arg0.toNat v = .ok m) :
    exec (if v then .bitSet1 else .bitSet0) s = .next (finish none { s with bitmem := m }) := by
  cases v with
  | false => exact exec_of_effect (i := .bitSet0) ⟨hv, hi, m, hm, rfl⟩
  | true => exact exec_of_effect (i := .bitSet1) ⟨hv, hi, m, hm, rfl⟩

/-- Settles O34: the errors are those of the index check; the byte of a legal index is held, and setbit rewrites that byte alone. -/
theorem bitSetAssignsOneBit : Obligations.BitSetAssignsOneBit := by
  refine ⟨decode_encode .bitSet0, decode_encode .bitSet1, fun v s =>
    ⟨exec_bitAccessor_of_no_store (bitSet_mem_accessors v), exec_bitAccessor_of_bitCount_le (bitSet_mem_accessors v),
      fun hr hv hi => ?_⟩⟩
  obtain ⟨m, hm⟩ := setBit_of_held v (hr.bit_held hv hi)
  obtain ⟨⟨b, hb, hwrite⟩, hbits, hother, -⟩ := setBit_ok hm
  refine ⟨m, b, exec_bitSet_of_setBit hv hi hm, hb, ?_, hother, ?_, fun j hj => ?_⟩
  · rw [hwrite, Memory.read_write_same, assignByteBit_eq_mask]
  · rw [hbits, if_pos rfl]
  · rw [hbits, if_neg hj]

/-! ### BS_NEW -/

theorem exec_bsNew_of_maxBits_lt {s : State} (h : maxBits s < s.arg0.toNat) :
    exec .bsNew s = .next (finish (some .capacityNew) s) :=
  conclude_of_raise (bind_error_iff.2 (.inl ((require_error_iff _ _).2 ⟨h.not_ge, rfl⟩)))

theorem Memory.read_writeBytes_replicate (m : Memory) (n a : Nat) (b : Byte) :
    (m.writeBytes 0 (List.replicate n b)).read a = if a < n then some b else m.read a := by
  rw [Memory.read_writeBytes, List.length_replicate]
  by_cases h : a < n <;> simp [h]

/-- Settles O33: an accepted size installs a store of zero bytes, and nothing else is written. -/
theorem bsNewMakesAZeroFilledStore : Obligations.BsNewMakesAZeroFilledStore :=
  ⟨decode_encode .bsNew, fun s => ⟨exec_bsNew_of_maxBits_lt, fun h =>
    ⟨_, exec_of_effect (i := .bsNew) ⟨h, rfl⟩, fun a => Memory.read_writeBytes_replicate s.bitmem _ a 0⟩⟩⟩

/-! ### BIT_GET -/

/-- Settles O35: RESULT is the addressed bit, zero-extended, which is that bit of the byte read as a number. -/
theorem bitGetReadsOneBit : Obligations.BitGetReadsOneBit := by
  have hget : Instr.bitGet ∈ [Instr.bitSet0, .bitSet1, .bitGet] := by decide
  refine ⟨decode_encode .bitGet, fun s => ⟨exec_bitAccessor_of_no_store hget, exec_bitAccessor_of_bitCount_le hget,
    fun hr hv hi => ?_⟩⟩
  have hheld := hr.bit_held hv hi
  obtain ⟨b, hb⟩ := Option.isSome_iff_exists.1 hheld
  refine ⟨b, _, hb, exec_of_effect (i := .bitGet) ⟨hv, hi, hheld, rfl⟩, ?_, setWidth_ofBool_eq_one_iff _⟩
  rw [bitAt_of_read hb, toNat_setWidth_ofBool_getLsbD]

end Sys2Proof.Machine
end

section
/-! PROOFS. 41_hash.md: murmur3_32 (R141 to R143), fnv1a_32 (R144), the double hash and its period (R145, R146), and the
hashing commands' checks (R149) with HASH (R150) and INDEX (R152). -/

namespace Sys2Proof.Machine

/-! ### The two hashes -/

/-- The tail is scrambled in exactly when some bytes are left; the finalisation follows in both cases. -/
theorem murmurLast_eq_ite (len h : HashWord) (rest : List Byte) :
    murmurLast len h rest = avalanche len (if rest.length = 0 then h else h ^^^ scramble (le32 rest)) := by
  cases rest <;> rfl

theorem length_drop_chunks {α : Type} (l : List α) (n : Nat) : (l.drop (n * (l.length / n))).length = l.length % n := by
  rw [List.length_drop, ← Nat.mod_eq_sub_mul_div]

/-- What is left after the whole chunks is itself less than a chunk. -/
theorem take_drop_chunks {α : Type} (l : List α) {n : Nat} (hn : 0 < n) :
    (l.drop (n * (l.length / n))).take n = l.drop (n * (l.length / n)) :=
  List.take_of_length_le ((length_drop_chunks l n).trans_le (Nat.mod_lt _ hn).le)

/-- Settles O37: foldChunks by position, with the tail as the chunk at L div 4, which the end of the key cuts short. -/
theorem murmurRunsChunksThenTail : Obligations.MurmurRunsChunksThenTail := by
  intro K seed
  have hbyPosition : murmur3 K seed = _ := foldChunks_eq murmurBody (murmurLast (BitVec.ofNat 32 K.length)) K seed
  rw [murmurLast_eq_ite, length_drop_chunks, ← take_drop_chunks K (n := 4) (by decide)] at hbyPosition
  exact hbyPosition

/-- Settles O38: a fold over the bytes from the left. -/
theorem fnvFoldsByteByByte : Obligations.FnvFoldsByteByByte :=
  ⟨rfl, fun K b => by rw [fnv1a, List.foldl_append]; rfl⟩

/-- Settles O39: the five hashes are closed terms, and the model computes each. -/
theorem hashValuesOfTheSpecsExamples : Obligations.HashValuesOfTheSpecsExamples :=
  ⟨by decide, by decide, by decide, by decide, by decide⟩

/-! ### The double hash -/

/-- Settles O40: the definition, and the bound of a remainder. -/
theorem indicesAreTheDoubleHash : Obligations.IndicesAreTheDoubleHash :=
  fun _ _ j hm => ⟨rfl, indexOf_lt hm j⟩

theorem indexOf_zero (K : List Byte) (m : Nat) : indexOf K m 0 = baseHash1 K m := by
  rw [indexOf, Nat.zero_mul, Nat.add_zero, baseHash1, Nat.mod_mod]

theorem indexOf_add (K : List Byte) (m j n : Nat) :
    indexOf K m (j + n) = (indexOf K m j + n * baseHash2 K m) % m := by
  rw [indexOf, indexOf, Nat.mod_add_mod, Nat.add_mul, Nat.add_assoc]

/-- The steps of one period add a multiple of m: their sum is the least common multiple of m and the step. -/
theorem dvd_period_mul (h m : Nat) : m ∣ m / Nat.gcd h m * h := by
  rw [Nat.div_mul_right_comm (Nat.gcd_dvd_right h m), Nat.gcd_comm]
  exact Nat.dvd_lcm_left m h

theorem indexOf_add_period {K : List Byte} {m : Nat} (hm : 1 ≤ m) (j : Nat) :
    indexOf K m (j + m / Nat.gcd (baseHash2 K m) m) = indexOf K m j := by
  obtain ⟨c, hc⟩ := dvd_period_mul (baseHash2 K m) m
  rw [indexOf_add, hc, Nat.add_mul_mod_self_left, Nat.mod_eq_of_lt (indexOf_lt hm j)]

/-- No index is new after the first m. -/
theorem exists_lt_indexOf_iff {K : List Byte} {m : Nat} (hm : 1 ≤ m) (k x : Nat) :
    (∃ j < k, indexOf K m j = x) ↔ ∃ j < min k m, indexOf K m j = x := by
  constructor
  · rintro ⟨j, hj, rfl⟩
    exact ⟨j % m, lt_min ((Nat.mod_le j m).trans_lt hj) (Nat.mod_lt j hm), (indexOf_mod j).symm⟩
  · rintro ⟨j, hj, rfl⟩
    exact ⟨j, hj.trans_le (min_le_left k m), rfl⟩

/-- Settles O41: each index adds h2 to the one before, and the steps of one period add a multiple of m. -/
theorem indicesStepAndRepeat : Obligations.IndicesStepAndRepeat := by
  intro K m hm
  have hstep : ∀ j, indexOf K m (j + 1) = (indexOf K m j + baseHash2 K m) % m := fun j => by
    rw [indexOf_add, Nat.one_mul]
  have hbound : ∀ j, indexOf K m j + baseHash2 K m < 2 * m := fun j => by
    have hindex : indexOf K m j < m := indexOf_lt hm j
    have hh2 : baseHash2 K m < m := Nat.mod_lt _ hm
    omega
  exact ⟨indexOf_zero K m, fun j => ⟨hstep j, hbound j⟩, Nat.div_le_self m _, indexOf_add_period hm,
    exists_lt_indexOf_iff hm⟩

/-! ### The checks of the hashing commands -/

theorem hashOperand_of_no_filter {s : State} (h : s.engValid = false) : hashOperand s = .error (.raise .noFilter) := by
  simp [hashOperand, require_of_not, h]

theorem hashOperand_of_maxKeyBytes_lt {s : State} (hv : s.engValid = true) (h : maxKeyBytes s < s.keyLen.toNat) :
    hashOperand s = .error (.raise .keyTooLong) := by
  simp [hashOperand, require_of _ hv, require_of_not _ h.not_ge]

/-- Behind both checks a hashing command reads its key, and stops where that read stops. -/
theorem hashOperand_eq_readKey {s : State} (hv : s.engValid = true) (h : s.keyLen.toNat ≤ maxKeyBytes s) :
    hashOperand s = readKey s := by
  simp [hashOperand, require_of _ hv, require_of _ h]

/-- Every hashing command takes its key first, by the same rule. -/
theorem exec_hashing {i : Instr} (hi : isHashing i = true) (s : State) :
    ∃ onKey : List Byte → Except Stop State, exec i s = conclude s (hashOperand s >>= onKey) := by
  cases i
  case hash => exact ⟨_, rfl⟩
  case index => exact ⟨_, rfl⟩
  case insert => exact ⟨_, rfl⟩
  case lookup => exact ⟨_, rfl⟩
  all_goals cases hi

/-- What stops the taking of the key stops the command. -/
theorem exec_hashing_of_operand_error {i : Instr} {s : State} {st : Stop} (hi : isHashing i = true)
    (h : hashOperand s = .error st) : exec i s = conclude s (.error st) := by
  obtain ⟨onKey, hexec⟩ := exec_hashing hi s
  rw [hexec, h, error_bind]

theorem checksHashOperands {i : Instr} (hi : isHashing i = true) (s : State) : ChecksHashOperands i s :=
  ⟨fun hv => exec_hashing_of_operand_error hi (hashOperand_of_no_filter hv),
    fun hv hlt => exec_hashing_of_operand_error hi (hashOperand_of_maxKeyBytes_lt hv hlt)⟩

/-- Settles O42: all four commands take the key first, by two checks and a read that faults at a gap. -/
theorem hashingCommandsCheckTheirOperands : Obligations.HashingCommandsCheckTheirOperands := by
  intro i s hi
  obtain ⟨hnoFilter, htooLong⟩ := checksHashOperands hi s
  refine ⟨hnoFilter, htooLong, fun hv hle ⟨o, ho, hgap⟩ => ?_⟩
  obtain ⟨o', -, ho', hgap', hread⟩ := readBytes_gap (a := 0) (n := s.keyLen.toNat) .key
    ⟨o, o.zero_le, by omega, hgap⟩
  have hstop : hashOperand s = .error (.fault (.unwrittenByte .key o')) := (hashOperand_eq_readKey hv hle).trans hread
  exact ⟨o', by omega, hgap', exec_hashing_of_operand_error hi hstop⟩

/-! ### HASH and INDEX -/

/-- Settles O43: the effect of HASH is writeHashes alone. -/
theorem hashWritesTheBaseHashes : Obligations.HashWritesTheBaseHashes :=
  ⟨decode_encode .hash, fun s => ⟨checksHashOperands rfl s, fun K hK _ => exec_of_effect (i := .hash) ⟨K, hK, rfl⟩⟩⟩

/-- A bit index below a 64-bit BIT_COUNT is exact in a register. -/
theorem toNat_ofNat_indexOf {c : Word} (hc : 1 ≤ c.toNat) (K : List Byte) (j : Nat) :
    (BitVec.ofNat 64 (indexOf K c.toNat j)).toNat = indexOf K c.toNat j := by
  rw [BitVec.toNat_ofNat, Nat.mod_eq_of_lt ((indexOf_lt hc j).trans c.isLt)]

/-- Settles O44: the effect of INDEX is writeHashes and RESULT, which holds the index exactly. -/
theorem indexWritesOneCandidate : Obligations.IndexWritesOneCandidate :=
  ⟨decode_encode .index, fun s => ⟨checksHashOperands rfl s, fun K hK hc =>
    ⟨_, exec_of_effect (i := .index) ⟨K, hK, rfl⟩, toNat_ofNat_indexOf hc K s.arg0.toNat⟩⟩⟩

end Sys2Proof.Machine
end

section
/-! PROOFS. 42_engine.md: the sizing law (R170, R171), NEW (R172), LOOKUP (R173, R174), no false negatives (R175), INSERT (R176),
no delete (R178) and idempotence (R179). -/

namespace Sys2Proof.Machine

/-! ### The size as the next integer above n C_M -/

theorem sizedBits_eq_iff {n k : ℕ} :
    sizedBits n = k ↔ n * sizingFix < k * 2 ^ 192 ∧ k * 2 ^ 192 ≤ n * sizingFix + 2 ^ 192 := by
  rw [sizedBits, Nat.mul_comm sizingFix]
  generalize n * sizingFix = x
  omega

/-- Where p/q exceeds a/b by at most 1/(N q), no fraction k/n with n up to N lies above a/b and below p/q. -/
theorem mul_le_mul_of_close {a b p q N n k : ℕ} (hclose : N * (p * b) ≤ N * (a * q) + b) (hq : 0 < q) (hN : 0 < N)
    (hn : n ≤ N) (hk : n * a < k * b) : n * p ≤ k * q := by
  have hscaled : N * (b * (n * p)) ≤ N * (q * (n * a) + b) := calc
    N * (b * (n * p)) = n * (N * (p * b)) := by ring
    _ ≤ n * (N * (a * q) + b) := Nat.mul_le_mul_left n hclose
    _ = N * (q * (n * a)) + n * b := by ring
    _ ≤ N * (q * (n * a)) + N * b := Nat.add_le_add_left (Nat.mul_le_mul_right b hn) _
    _ = N * (q * (n * a) + b) := by ring
  have hlt : b * (n * p) < b * (k * q + 1) := calc
    b * (n * p) ≤ q * (n * a) + b := Nat.le_of_mul_le_mul_left hscaled hN
    _ < q * (k * b) + b := Nat.add_lt_add_right (Nat.mul_lt_mul_of_pos_left hk hq) b
    _ = b * (k * q + 1) := by ring
  exact Nat.lt_succ_iff.1 (Nat.lt_of_mul_lt_mul_left hlt)

/-- The numerator of a convergent of C_M from above, so near to C_M that no fraction k/n lies between them for a 64-bit n. -/
def sizingNum : ℕ := 9247062402146626981

/-- The denominator of that convergent. -/
def sizingDen : ℕ := 964737202225194631

theorem mul_sizingNum_le {n : ℕ} (hn : n ≤ 2 ^ 64) : n * sizingNum ≤ sizedBits n * sizingDen := by
  obtain ⟨hlt, -⟩ := sizedBits_eq_iff.1 (rfl : sizedBits n = _)
  exact mul_le_mul_of_close (N := 2 ^ 64) (by decide) (by decide) (by decide) hn hlt

/-! ### C_M on the reals -/

/-- log 2, to 60 places, by the series of log ((1 + x) / (1 - x)) at x = 1/3. -/
theorem log_two_bounds :
    (693147180559945309417232121458176568075500134360255254120680 / 10 ^ 60 : ℝ) ≤ Real.log 2 ∧
      Real.log 2 ≤ 693147180559945309417232121458176568075500134360255254120681 / 10 ^ 60 := by
  have hlower := Real.sum_range_le_log_div (x := 1 / 3) (by norm_num) (by norm_num) 63
  have hupper := Real.log_div_le_sum_range_add (x := 1 / 3) (by norm_num) (by norm_num) 63
  norm_num [Finset.sum_range_succ] at hlower hupper ⊢
  constructor <;> linarith

/-- log (5/4), to 60 places, by the same series at x = 1/9. -/
theorem log_five_quarters_bounds :
    (223143551314209755766295090309834503374601085548007213671287 / 10 ^ 60 : ℝ) ≤ Real.log (5 / 4) ∧
      Real.log (5 / 4) ≤ 223143551314209755766295090309834503374601085548007213671288 / 10 ^ 60 := by
  have hlower := Real.sum_range_le_log_div (x := 1 / 9) (by norm_num) (by norm_num) 32
  have hupper := Real.log_div_le_sum_range_add (x := 1 / 9) (by norm_num) (by norm_num) 32
  norm_num [Finset.sum_range_succ] at hlower hupper ⊢
  constructor <;> linarith

theorem log_hundred_eq : Real.log 100 = 6 * Real.log 2 + 2 * Real.log (5 / 4) := by
  rw [show (100 : ℝ) = 2 ^ 6 * (5 / 4) ^ 2 by norm_num, Real.log_mul (by norm_num) (by norm_num), Real.log_pow,
    Real.log_pow]
  norm_num

/-- sizingFix cuts C_M 2^192 off below. -/
theorem sizingFix_mul_lt : (sizingFix : ℝ) * Real.log 2 ^ 2 < 2 ^ 192 * Real.log 100 := by
  obtain ⟨hlower, hupper⟩ := log_two_bounds
  obtain ⟨hfive, -⟩ := log_five_quarters_bounds
  have hsq : Real.log 2 ^ 2 ≤ (693147180559945309417232121458176568075500134360255254120681 / 10 ^ 60) ^ 2 := by gcongr
  rw [log_hundred_eq, sizingFix]
  norm_num at hsq hlower hfive ⊢
  linarith

theorem mul_log_hundred_le : (sizingDen : ℝ) * Real.log 100 ≤ sizingNum * Real.log 2 ^ 2 := by
  obtain ⟨hlower, hupper⟩ := log_two_bounds
  obtain ⟨-, hfive⟩ := log_five_quarters_bounds
  have hsq : (693147180559945309417232121458176568075500134360255254120680 / 10 ^ 60) ^ 2 ≤ Real.log 2 ^ 2 := by gcongr
  rw [log_hundred_eq, sizingNum, sizingDen]
  norm_num at hsq hupper hfive ⊢
  linarith

/-- k lies between log2 64 and log2 128. -/
theorem ceil_log_ratio : ⌈Real.log 100 / Real.log 2⌉ = 7 := by
  have hlog2 : 0 < Real.log 2 := Real.log_pos one_lt_two
  rw [Int.ceil_eq_iff, lt_div_iff₀ hlog2, div_le_iff₀ hlog2]
  constructor
  · calc ((7 : ℤ) - 1 : ℝ) * Real.log 2 = Real.log (2 ^ 6) := by rw [Real.log_pow]; norm_num
      _ < Real.log 100 := Real.log_lt_log (by norm_num) (by norm_num)
  · calc Real.log 100 ≤ Real.log (2 ^ 7) := Real.log_le_log (by norm_num) (by norm_num)
      _ = ((7 : ℤ) : ℝ) * Real.log 2 := by rw [Real.log_pow]; norm_num

/-- Settles O45: n C_M lies above n sizingFix / 2^192 and at most at n sizingNum / sizingDen, with one integer between the two. -/
theorem sizingIsTheExactRealCeiling : Obligations.SizingIsTheExactRealCeiling := by
  refine ⟨fun n hpos hlt => ?_, ceil_log_ratio.symm⟩
  have hn : (0 : ℝ) < n := Nat.cast_pos.2 hpos
  have hsq : 0 < Real.log 2 ^ 2 := pow_pos (Real.log_pos one_lt_two) 2
  have hbelow : (sizedBits n : ℝ) * 2 ^ 192 ≤ n * sizingFix + 2 ^ 192 := by
    exact_mod_cast (sizedBits_eq_iff.1 rfl).2
  have habove : (n : ℝ) * sizingNum ≤ sizedBits n * sizingDen := by exact_mod_cast mul_sizingNum_le hlt.le
  symm
  rw [Int.ceil_eq_iff, lt_div_iff₀ hsq, div_le_iff₀ hsq]
  constructor
  · refine lt_of_mul_lt_mul_left ?_ (by positivity : (0 : ℝ) ≤ 2 ^ 192)
    calc (2 : ℝ) ^ 192 * ((sizedBits n - 1) * Real.log 2 ^ 2)
        = (sizedBits n * 2 ^ 192 - 2 ^ 192) * Real.log 2 ^ 2 := by ring
      _ ≤ n * sizingFix * Real.log 2 ^ 2 := mul_le_mul_of_nonneg_right (sub_le_iff_le_add.2 hbelow) hsq.le
      _ = n * (sizingFix * Real.log 2 ^ 2) := by ring
      _ < n * (2 ^ 192 * Real.log 100) := mul_lt_mul_of_pos_left sizingFix_mul_lt hn
      _ = 2 ^ 192 * (n * Real.log 100) := by ring
  · refine le_of_mul_le_mul_left ?_ (Nat.cast_pos.2 (by decide) : (0 : ℝ) < sizingDen)
    calc (sizingDen : ℝ) * (n * Real.log 100) = n * (sizingDen * Real.log 100) := by ring
      _ ≤ n * (sizingNum * Real.log 2 ^ 2) := mul_le_mul_of_nonneg_left mul_log_hundred_le hn.le
      _ = n * sizingNum * Real.log 2 ^ 2 := by ring
      _ ≤ sizedBits n * sizingDen * Real.log 2 ^ 2 := mul_le_mul_of_nonneg_right habove hsq.le
      _ = sizingDen * (sizedBits n * Real.log 2 ^ 2) := by ring

/-! ### The 100-bit constant -/

/-- C_FX96, the first 100 bits of sizingFix (42_engine.md R171). -/
def sizingFix96 : ℕ := 0x995c662c50b421a30c43e7c1e

theorem sizedBits_eq_fix96 {n : ℕ} (hpos : 1 ≤ n) (hlt : n < 2 ^ 32) :
    sizedBits n = n * sizingFix96 / 2 ^ 96 + 1 := by
  have hfloor : n * sizingFix96 / 2 ^ 96 * 2 ^ 96 ≤ n * sizingFix96 := Nat.div_mul_le_self _ _
  have hnext : n * sizingFix96 < (n * sizingFix96 / 2 ^ 96 + 1) * 2 ^ 96 := by
    rw [Nat.mul_comm (_ + 1)]
    exact Nat.lt_mul_div_succ _ (Nat.two_pow_pos 96)
  generalize n * sizingFix96 / 2 ^ 96 = k at hfloor hnext ⊢
  have hnum : n * sizingNum ≤ (k + 1) * sizingDen :=
    mul_le_mul_of_close (N := 2 ^ 32) (by decide) (by decide) (by decide) hlt.le hnext
  refine sizedBits_eq_iff.2 ⟨Nat.lt_of_mul_lt_mul_right (a := sizingDen) ?_, ?_⟩
  · calc n * sizingFix * sizingDen = n * (sizingFix * sizingDen) := Nat.mul_assoc _ _ _
      _ < n * (sizingNum * 2 ^ 192) := Nat.mul_lt_mul_of_pos_left (by decide) hpos
      _ = n * sizingNum * 2 ^ 192 := (Nat.mul_assoc _ _ _).symm
      _ ≤ (k + 1) * sizingDen * 2 ^ 192 := Nat.mul_le_mul_right _ hnum
      _ = (k + 1) * 2 ^ 192 * sizingDen := Nat.mul_right_comm _ _ _
  · calc (k + 1) * 2 ^ 192 = k * 2 ^ 96 * 2 ^ 96 + 2 ^ 192 := by ring
      _ ≤ n * sizingFix96 * 2 ^ 96 + 2 ^ 192 := Nat.add_le_add_right (Nat.mul_le_mul_right _ hfloor) _
      _ = n * (sizingFix96 * 2 ^ 96) + 2 ^ 192 := by rw [Nat.mul_assoc]
      _ ≤ n * sizingFix + 2 ^ 192 := Nat.add_le_add_right (Nat.mul_le_mul_left n (by decide)) _

/-- Settles O46: the two fixed-point products have the same integer part, and the six sizes are computed. -/
theorem sizingMatchesTheFixedPointConstant : Obligations.SizingMatchesTheFixedPointConstant :=
  ⟨fun _ hpos hlt => sizedBits_eq_fix96 hpos hlt, by decide⟩

/-! ### NEW -/

theorem exec_new (mode : Bool) (s : State) :
    exec (if mode then .new1 else .new0) s = conclude s (newFilter (if mode then 1 else 0) s) := by
  cases mode <;> rfl

/-- The other direction of newFilter_ok. -/
theorem newFilter_of_fits (mode : Byte) {s : State} (h0 : s.arg0.toNat ≠ 0) (hfits : sizedBits s.arg0.toNat ≤ maxBits s) :
    newFilter mode s = .ok (installStore (BitVec.ofNat 64 (sizedBits s.arg0.toNat))
      (List.replicate (nbytes (sizedBits s.arg0.toNat)) 0) filterHashes mode true s) := by
  simp [newFilter, require_of _ h0, require_of _ hfits]

/-- Settles O47: the two errors are those of newFilter, and an accepted capacity installs a store of zero bytes. -/
theorem newMakesAnEmptyFilter : Obligations.NewMakesAnEmptyFilter := by
  refine ⟨decode_encode .new0, decode_encode .new1, fun mode s => ?_⟩
  simp only [exec_new]
  have hpos : s.arg0 ≠ 0 → s.arg0.toNat ≠ 0 := fun h => Nat.one_le_iff_ne_zero.1 (one_le_toNat h)
  refine ⟨fun h0 => ?_, fun h0 hlt => ?_, fun h0 hfits => ?_⟩
  · exact conclude_of_raise (newFilter_error_iff.2 (.inl ⟨congrArg BitVec.toNat h0, rfl⟩))
  · exact conclude_of_raise (newFilter_error_iff.2 (.inr ⟨hpos h0, hlt, rfl⟩))
  · exact ⟨_, BitVec.ofNat 64 _, Nat.mod_eq_of_lt (hfits.trans_lt s.maxBitsR.isLt),
      conclude_of_ok (newFilter_of_fits _ (hpos h0) hfits),
      fun a => Memory.read_writeBytes_replicate s.bitmem _ a 0⟩

/-! ### Membership -/

/-- `K` is a member of the filter of the state: every candidate bit is 1 (42_engine.md R173). -/
def Member (s : State) (K : List Byte) : Prop :=
  ∀ j < s.hashCount.toNat, bitAt s.bitmem (indexOf K s.bitCount.toNat j) = true

theorem Rules39.one_le_bitCount {s : State} (h : Rules39 s) (hv : s.engValid = true) : 1 ≤ s.bitCount.toNat :=
  (h.filter_counts hv).1

/-- INSERT and LOOKUP stop after min(k, m) indices and miss no candidate bit. -/
theorem mem_keyBits_iff {s : State} (hm : 1 ≤ s.bitCount.toNat) (K : List Byte) (x : Nat) :
    x ∈ keyBits s K ↔ ∃ j < s.hashCount.toNat, indexOf K s.bitCount.toNat j = x := by
  rw [exists_lt_indexOf_iff hm]
  simp [keyBits, candidates]

theorem member_iff_keyBits {s : State} (hm : 1 ≤ s.bitCount.toNat) (K : List Byte) :
    Member s K ↔ ∀ x ∈ keyBits s K, bitAt s.bitmem x = true := by
  simp only [mem_keyBits_iff hm, forall_exists_index, and_imp, forall_apply_eq_imp_iff₂, Member]

theorem not_member_iff {s : State} {K : List Byte} :
    ¬Member s K ↔ ∃ j < s.hashCount.toNat, bitAt s.bitmem (indexOf K s.bitCount.toNat j) = false := by
  simp [Member]

/-- No candidate bit lies on a byte without a value (10_state.md R39(h)). -/
theorem Rules39.keyBits_held {s : State} (h : Rules39 s) (hv : s.engValid = true) (K : List Byte) :
    ∀ x ∈ keyBits s K, (s.bitmem.read (x / 8)).isSome = true := fun _ hx =>
  h.bit_held (h.filter_has_store hv) (candidates_lt (h.one_le_bitCount hv) hx)

/-- The membership test runs through, and answers R173's question. -/
theorem Rules39.allSet_keyBits {s : State} (h : Rules39 s) (hv : s.engValid = true) (K : List Byte) :
    ∃ present, allSet s.bitmem (keyBits s K) = .ok present ∧ (present = true ↔ Member s K) := by
  obtain ⟨present, hpresent⟩ := allSet_of_held (h.keyBits_held hv K)
  exact ⟨present, hpresent, (allSet_ok hpresent).trans (member_iff_keyBits (h.one_le_bitCount hv) K).symm⟩

/-! ### LOOKUP -/

theorem exec_lookup_of_hashable {s : State} {K : List Byte} (hr : Rules39 s) (hK : Hashable s K) :
    ∃ present, exec .lookup s = .next (finish none { writeHashes K s with result := boolWord present }) ∧
      (present = true ↔ Member s K) := by
  have hv : s.engValid = true := hK.1
  obtain ⟨present, hpresent, hmember⟩ := hr.allSet_keyBits hv K
  exact ⟨present, exec_of_effect (i := .lookup) ⟨K, hK, present, hpresent, rfl⟩, hmember⟩

theorem boolWord_eq_one_iff (b : Bool) : boolWord b = 1 ↔ b = true := setWidth_ofBool_eq_one_iff b

theorem boolWord_zero_or_one (b : Bool) : boolWord b = 0 ∨ boolWord b = 1 := by
  cases b
  · exact .inl rfl
  · exact .inr rfl

/-- Settles O48: RESULT is the answer of the membership test, which meets no byte without a value. -/
theorem lookupTestsEveryCandidateBit : Obligations.LookupTestsEveryCandidateBit := by
  refine ⟨decode_encode .lookup, fun s => ⟨checksHashOperands rfl s, fun K hr hK => ?_⟩⟩
  obtain ⟨present, hexec, hmember⟩ := exec_lookup_of_hashable hr hK
  exact ⟨boolWord present, hexec, boolWord_zero_or_one present, (boolWord_eq_one_iff present).trans hmember⟩

/-! ### INSERT -/

theorem exec_insert_of_member {s : State} {K : List Byte} (hr : Rules39 s) (hK : Hashable s K) (hmember : Member s K) :
    exec .insert s = .next (finish none { writeHashes K s with result := 0 }) := by
  have hv : s.engValid = true := hK.1
  obtain ⟨_, hpresent, hiff⟩ := hr.allSet_keyBits hv K
  rw [hiff.2 hmember] at hpresent
  exact exec_of_effect (i := .insert) ⟨K, hK, .inl ⟨hpresent, rfl⟩⟩

theorem exec_insert_of_not_member {s : State} {K : List Byte} (hr : Rules39 s) (hK : Hashable s K)
    (hnew : ¬Member s K) : ∃ m, setAll s.bitmem (keyBits s K) = .ok m ∧
      exec .insert s = .next (finish none { writeHashes K s with bitmem := m, result := 1 }) := by
  have hv : s.engValid = true := hK.1
  obtain ⟨present, hpresent, hiff⟩ := hr.allSet_keyBits hv K
  obtain rfl : present = false := Bool.eq_false_iff.2 (mt hiff.1 hnew)
  obtain ⟨m, hm⟩ := setAll_of_held (hr.keyBits_held hv K)
  exact ⟨m, hm, exec_of_effect (i := .insert) ⟨K, hK, .inr ⟨hpresent, m, hm, rfl⟩⟩⟩

/-- Settles O49: a member takes the first branch of INSERT, every other key the second, and setAll reaches the candidate bits alone. -/
theorem insertSetsEveryCandidateBit : Obligations.InsertSetsEveryCandidateBit := by
  refine ⟨decode_encode .insert, fun s => ⟨checksHashOperands rfl s, fun K hr hK => ?_⟩⟩
  by_cases hmember : Member s K
  · exact ⟨0, s.bitmem, exec_insert_of_member hr hK hmember, .inl ⟨hmember, rfl, rfl⟩⟩
  · obtain ⟨m, hm, hexec⟩ := exec_insert_of_not_member hr hK hmember
    obtain ⟨hbits, -, hbytes⟩ := setAll_ok hm
    have hmem := mem_keyBits_iff (hr.one_le_bitCount hK.1) K
    refine ⟨1, m, hexec, .inr ⟨not_member_iff.1 hmember, rfl, fun x => ?_, fun a ha => hbytes a fun x hx => ?_⟩⟩
    · rw [hbits, hmem]
    · obtain ⟨j, hj, rfl⟩ := (hmem x).1 hx
      exact ha j hj

theorem Rules39.of_exec {i : Instr} {s t : State} (h : Rules39 s) (ht : exec i s = .next t) : Rules39 t := by
  rcases exec_next_writes ht with ⟨e, rfl⟩ | ⟨s', hw, rfl⟩
  · exact h.of_finish _
  · exact (h.of_writes hw).of_finish _

/-- What INSERT leaves: the invariants, the key and the filter's parameters as they were, and the key a member. -/
theorem insert_makes_member {s t : State} {K : List Byte} (hr : Rules39 s) (hK : Hashable s K) (h : exec .insert s = .next t) :
    Rules39 t ∧ Hashable t K ∧ Member t K := by
  have hrules : Rules39 t := hr.of_exec h
  by_cases hmember : Member s K
  · rw [exec_insert_of_member hr hK hmember] at h
    cases h
    exact ⟨hrules, hK, hmember⟩
  · obtain ⟨m, hm, hexec⟩ := exec_insert_of_not_member hr hK hmember
    obtain ⟨hbits, -⟩ := setAll_ok hm
    rw [hexec] at h
    cases h
    exact ⟨hrules, hK, (member_iff_keyBits (hrules.one_le_bitCount hK.1) K).2 fun x hx => (hbits x).2 (.inr hx)⟩

/-- Settles O51: after the first INSERT the key is a member, and INSERT of a member changes no bit. -/
theorem secondInsertChangesNoBit : Obligations.SecondInsertChangesNoBit := by
  intro s t K hr hK h
  obtain ⟨hrules, hhashable, hmember⟩ := insert_makes_member hr hK h
  exact ⟨_, exec_insert_of_member hrules hhashable hmember, rfl, rfl, rfl⟩

/-! ### No delete -/

theorem insert_keeps_set_bits {s t : State} {x : Nat} (h : exec .insert s = .next t) (hx : bitAt s.bitmem x = true) :
    bitAt t.bitmem x = true := by
  obtain ⟨e, -, rfl⟩ | ⟨s', ⟨K, -, ⟨-, rfl⟩ | ⟨-, m, hm, rfl⟩⟩, rfl⟩ := exec_next h
  · exact hx
  · exact hx
  · obtain ⟨hbits, -⟩ := setAll_ok hm
    exact (hbits x).2 (.inl hx)

theorem bitSet1_keeps_set_bits {s t : State} {x : Nat} (h : exec .bitSet1 s = .next t) (hx : bitAt s.bitmem x = true) :
    bitAt t.bitmem x = true := by
  obtain ⟨e, -, rfl⟩ | ⟨s', ⟨-, -, m, hm, rfl⟩, rfl⟩ := exec_next h
  · exact hx
  · obtain ⟨-, hbits, -⟩ := setBit_ok hm
    refine (hbits x).trans ?_
    split
    · rfl
    · exact hx

/-- The commands that only read (42_engine.md R178) are none of those that write BITMEM. -/
theorem reader_not_bitmem_writer : ∀ i ∈ [Instr.lookup, .hash, .index, .save, .bsSave, .bitGet],
    i ∉ [Instr.bsNew, .new0, .new1, .bsLoad, .load, .bitSet0, .bitSet1, .insert] := by decide

/-- Settles O52: the readers are off the list of BITMEM's writers, and each of the two setters only sets. -/
theorem engineCommandsNeverClearABit : Obligations.EngineCommandsNeverClearABit := by
  refine ⟨fun i s t hi h => ?_, fun i s t x hi h hx => ?_⟩
  · obtain ⟨-, -, -, -, hbitmem⟩ := onlyTheListedCommandsWriteEachRegister i s t h
    exact hbitmem (reader_not_bitmem_writer i hi)
  · simp only [List.mem_cons, List.not_mem_nil, or_false] at hi
    rcases hi with rfl | rfl
    · exact insert_keeps_set_bits h hx
    · exact bitSet1_keeps_set_bits h hx

/-! ### No false negatives -/

/-- The filter goes on: the same parameters, and every bit that was 1 is 1. -/
structure KeepsFilter (s t : State) : Prop where
  eng_valid : t.engValid = s.engValid
  bit_count : t.bitCount = s.bitCount
  hash_count : t.hashCount = s.hashCount
  set_bits : ∀ x, bitAt s.bitmem x = true → bitAt t.bitmem x = true

theorem KeepsFilter.refl (s : State) : KeepsFilter s s := ⟨rfl, rfl, rfl, fun _ => id⟩

theorem KeepsFilter.trans {s t u : State} (h : KeepsFilter s t) (h' : KeepsFilter t u) : KeepsFilter s u :=
  ⟨h'.eng_valid.trans h.eng_valid, h'.bit_count.trans h.bit_count, h'.hash_count.trans h.hash_count,
    fun x hx => h'.set_bits x (h.set_bits x hx)⟩

theorem Member.of_keepsFilter {s t : State} {K : List Byte} (h : Member s K) (hst : KeepsFilter s t) : Member t K := by
  unfold Member
  rw [hst.bit_count, hst.hash_count]
  exact fun j hj => hst.set_bits _ (h j hj)

theorem keepsFilter_finish (e : Option CmdError) (s : State) : KeepsFilter s (finish e s) := ⟨rfl, rfl, rfl, fun _ => id⟩

theorem KeepsFilter.of_schedule {s t : State} {l : List Turn} (h : KeepsFilter { s with schedule := l } t) :
    KeepsFilter s t :=
  ⟨h.eng_valid, h.bit_count, h.hash_count, h.set_bits⟩

theorem keepsFilter_of_onlyAnswers {s t : State} (h : OnlyAnswers s t) : KeepsFilter s t := by
  obtain ⟨bw, r, n, rfl⟩ := h
  exact ⟨rfl, rfl, rfl, fun _ => id⟩

theorem keepsFilter_of_hostWrite {s s' : State} (h : HostWrite s s') : KeepsFilter s s' := by
  cases h with
  | @byte buf => cases buf <;> exact ⟨rfl, rfl, rfl, fun _ => id⟩
  | _ => exact ⟨rfl, rfl, rfl, fun _ => id⟩

/-- The host reaches no part of the filter. -/
theorem keepsFilter_hostTxn (x : Txn) (s : State) : KeepsFilter s (hostTxn x s) := by
  rcases hostEffect_hostTxn x s with ht | ⟨-, s', hw, ht⟩
  · exact keepsFilter_of_onlyAnswers ht
  · rw [ht]
    exact (keepsFilter_of_hostWrite hw).trans (keepsFilter_of_onlyAnswers (onlyAnswers_answer _ _))

theorem not_installs_of_not_mayClear {i : Instr} (h : mayClear i = false) :
    i ∉ [Instr.bsNew, .new0, .new1, .bsLoad, .load] := by
  cases i <;> simp [mayClear] at h ⊢

theorem reads_or_sets_of_not_mayClear {i : Instr} (h : mayClear i = false) :
    i ∈ [Instr.lookup, .hash, .index, .save, .bsSave, .bitGet] ∨ i ∈ [Instr.insert, .bitSet1] := by
  cases i <;> simp [mayClear] at h ⊢

theorem keepsFilter_exec_of_not_mayClear {i : Instr} {s t : State} (hi : mayClear i = false) (h : exec i s = .next t) :
    KeepsFilter s t := by
  obtain ⟨hparams, -⟩ := onlyTheListedCommandsWriteEachRegister i s t h
  obtain ⟨-, heng, -, hbitCount, hhashCount⟩ := hparams (not_installs_of_not_mayClear hi)
  obtain ⟨hreads, hsets⟩ := engineCommandsNeverClearABit
  refine ⟨heng, hbitCount, hhashCount, fun x hx => ?_⟩
  rcases reads_or_sets_of_not_mayClear hi with hr | hs
  · rwa [hreads i s t hr h]
  · exact hsets i s t x hs h hx

/-- A command that ended with an error wrote its completion alone. -/
theorem keepsFilter_exec_of_err {i : Instr} {s t : State} (h : exec i s = .next t) (herr : t.err = true) :
    KeepsFilter s t := by
  rcases exec_next h with ⟨e, -, rfl⟩ | ⟨s', -, rfl⟩
  · exact keepsFilter_finish _ s
  · simp at herr

/-- How a pending word completes: an illegal one with its error, a command as exec says. -/
theorem engineStep_next_cases {s t : State} (h : engineStep s = .next t) : ∃ w, s.pending = some w ∧
    ((∃ e, t = finish (some (.illegal e)) s) ∨ ∃ i, decode w = .ok i ∧ exec i s = .next t) := by
  unfold engineStep at h
  split at h
  · cases h
  · next w hp =>
    refine ⟨w, hp, ?_⟩
    split at h
    · next e _ => cases h; exact .inl ⟨e, rfl⟩
    · next i hd => exact .inr ⟨i, hd, h⟩

theorem keepsFilter_engineTurn {s t : State} (h : engineTurn s = .next t)
    (hquiet : ∀ w i, s.busy = true → s.pending = some w → decode w = .ok i → mayClear i = true → t.err = true) :
    KeepsFilter s t := by
  cases hb : s.busy with
  | false =>
    rw [engineTurn_of_idle hb] at h
    cases h
    exact KeepsFilter.refl s
  | true =>
    rw [engineTurn_of_busy hb] at h
    obtain ⟨w, hp, ⟨e, rfl⟩ | ⟨i, hd, hexec⟩⟩ := engineStep_next_cases h
    · exact keepsFilter_finish _ s
    · cases hi : mayClear i with
      | false => exact keepsFilter_exec_of_not_mayClear hi hexec
      | true => exact keepsFilter_exec_of_err hexec (hquiet w i hb hp hd hi)

/-- On an engine's turn the pending instruction is the one executed. -/
theorem executes_of_pending {s : State} {w : Word} {i : Instr}
    (hturn : s.schedule.head? = none ∨ s.schedule.head? = some .engine) (hb : s.busy = true)
    (hp : s.pending = some w) (hd : decode w = .ok i) : executes s = some i := by
  rcases hturn with hturn | hturn <;> simp [executes, hturn, hb, hp, hd]

/-- The four turns: the engine's, listed or after the schedule, a transaction, and a reset, which no quiet step is. -/
theorem keepsFilter_of_quietStep {s t : State} (h : QuietStep s t) : KeepsFilter s t := by
  obtain ⟨hstep, hreset, hquiet⟩ := h
  cases hl : s.schedule with
  | nil =>
    rw [step_of_nil hl] at hstep
    exact keepsFilter_engineTurn hstep fun w i hb hp hd =>
      hquiet i (executes_of_pending (.inl (by rw [hl]; rfl)) hb hp hd)
  | cons turn rest =>
    rw [step_of_cons hl] at hstep
    cases turn with
    | engine =>
      exact (keepsFilter_engineTurn hstep fun w i hb hp hd =>
        hquiet i (executes_of_pending (.inr (by rw [hl]; rfl)) hb hp hd)).of_schedule
    | host x =>
      cases hstep
      exact (keepsFilter_hostTxn x _).of_schedule
    | reset => exact absurd (by rw [hl]; rfl) hreset

/-- What a run of quiet steps keeps: the invariants of R39, and the filter. -/
theorem keeps_of_quietRun {t u : State} (hr : Rules39 t) (h : Relation.ReflTransGen QuietStep t u) :
    Rules39 u ∧ KeepsFilter t u := by
  induction h with
  | refl => exact ⟨hr, .refl t⟩
  | tail _ hquiet ih =>
    obtain ⟨hrules, hkept⟩ := ih
    exact ⟨stepKeepsTheInvariantsOfR39.2 _ _ hrules hquiet.1, hkept.trans (keepsFilter_of_quietStep hquiet)⟩

/-- Settles O50: INSERT makes the key a member, every quiet step keeps it one, and LOOKUP answers 1 for a member. -/
theorem noFalseNegatives : Obligations.NoFalseNegatives := by
  intro s t u K hinv hK hinsert hrun hfits hkey
  obtain ⟨hrules, ⟨hv, -⟩, hmember⟩ := insert_makes_member hinv.rules hK hinsert
  obtain ⟨hrulesU, hkept⟩ := keeps_of_quietRun hrules hrun
  obtain ⟨present, hexec, hiff⟩ := exec_lookup_of_hashable hrulesU ⟨hkept.eng_valid.trans hv, hfits, hkey⟩
  exact ⟨_, hexec, rfl, (boolWord_eq_one_iff present).2 (hiff.2 (hmember.of_keepsFilter hkept))⟩

end Sys2Proof.Machine
end

section
/-! PROOFS. 43_codec.md: the images BS_SAVE and SAVE write (R200 to R202, R220, R221), the loads read by read (R203, R205,
R223 to R225), and the round trips (R206, R226). -/

namespace Sys2Proof.Machine

/-! ### Following a command read by read -/

/-- Where `r`, a check or a read of the command, stops, the command ends the same way: the error raised or the fault. -/
def StopsAs {α : Type} (i : Instr) (s : State) (r : Except Stop α) : Prop :=
  ∀ st, r = .error st → exec i s = conclude s (.error st)

section
variable {α β : Type} {i : Instr} {s : State}

theorem StopsAs.of_exec {x : Except Stop α} {f : α → Except Stop State} (h : exec i s = conclude s (x >>= f)) :
    StopsAs i s x := fun st hx => by rw [h, hx, error_bind]

theorem StopsAs.of_bind {x : Except Stop α} {f : α → Except Stop β} (h : StopsAs i s (x >>= f)) : StopsAs i s x :=
  fun st hx => h st (bind_error_iff.2 (.inl hx))

/-- Past a check or a read that succeeds, what is left of the rule decides how the command ends. -/
theorem exec_past {x : Except Stop α} {f : α → Except Stop State} {a : α} (h : exec i s = conclude s (x >>= f))
    (hx : x = .ok a) : exec i s = conclude s (f a) := by rw [h, hx, ok_bind]

theorem StopsAs.past {x : Except Stop α} {f : α → Except Stop β} {a : α} (h : StopsAs i s (x >>= f))
    (hx : x = .ok a) : StopsAs i s (f a) := fun st hf => h st (bind_error_iff.2 (.inr ⟨a, hx, hf⟩))

theorem StopsAs.raises {p : Prop} [Decidable p] {e : CmdError} (h : StopsAs i s (require p e)) (hp : ¬p) :
    exec i s = .next (finish (some e) s) := h _ (require_of_not e hp)

theorem StopsAs.faults_readBytes {a n : Nat} (h : StopsAs i s (readBytes .img s.img a n)) : FaultsAtGap i s a n :=
  faultsAtGap_of_read fun _ hread => h _ hread

theorem StopsAs.faults_readBe64 {a : Nat} (h : StopsAs i s (readBe64 .img s.img a)) : FaultsAtGap i s a 8 :=
  StopsAs.faults_readBytes h.of_bind

theorem StopsAs.faults_readByte {a : Nat} (h : StopsAs i s (readByte .img s.img a)) : FaultsAtGap i s a 1 := by
  rintro ⟨o, hle, hlt, hgap⟩
  obtain rfl : o = a := by omega
  exact ⟨o, hle, hlt, hgap, h _ (readByte_error_iff.2 ⟨hgap, rfl⟩)⟩

end

/-! ### ParseSeg, for either load -/

theorem FieldIs.readBe64 {s : State} {a : Nat} {F : List Byte} (h : FieldIs s a F) :
    readBe64 .img s.img a = .ok (beNat F) := readBe64_of_holds .img h.1 h.2

section
variable {i : Instr} {s : State} {S : Nat} {N C : List Byte}

theorem parseSegment_of_fields (hN : FieldIs s 0 N) (hC : FieldIs s (8 + beNat N) C) (hS : S = 16 + beNat N)
    (hlen : beNat N = nbytes (beNat C)) : parseSegment s.img S = .ok (beNat N, beNat C) := by
  simp only [parseSegment, bind_ok_iff, require_ok_iff, exists_const]
  exact ⟨by omega, _, hN.readBe64, hS.ge, _, hC.readBe64, hS, hlen, rfl⟩

variable (h : StopsAs i s (parseSegment s.img S))
include h

theorem StopsAs.segment_short (hS : S < 8) : exec i s = .next (finish (some .formatOverrun) s) :=
  StopsAs.raises h.of_bind hS.not_ge

theorem StopsAs.segment_length_gap (hS : 8 ≤ S) : FaultsAtGap i s 0 8 :=
  StopsAs.faults_readBe64 (StopsAs.past h (require_of _ hS)).of_bind

theorem StopsAs.segment_overrun (hS : 8 ≤ S) (hN : FieldIs s 0 N) (hlt : S < 16 + beNat N) :
    exec i s = .next (finish (some .formatOverrun) s) :=
  ((StopsAs.past h (require_of _ hS)).past hN.readBe64).of_bind.raises hlt.not_ge

theorem StopsAs.segment_count_gap (hS : 8 ≤ S) (hN : FieldIs s 0 N) (hle : 16 + beNat N ≤ S) :
    FaultsAtGap i s (8 + beNat N) 8 :=
  (((StopsAs.past h (require_of _ hS)).past hN.readBe64).past (require_of _ hle)).of_bind.faults_readBe64

theorem StopsAs.segment_trailing (hN : FieldIs s 0 N) (hC : FieldIs s (8 + beNat N) C) (hlt : 16 + beNat N < S) :
    exec i s = .next (finish (some .formatTrailing) s) :=
  ((((StopsAs.past h (require_of _ (by omega))).past hN.readBe64).past (require_of _ hlt.le)).past
    hC.readBe64).of_bind.raises hlt.ne'

theorem StopsAs.segment_length (hN : FieldIs s 0 N) (hC : FieldIs s (8 + beNat N) C) (hS : S = 16 + beNat N)
    (hne : beNat N ≠ nbytes (beNat C)) : exec i s = .next (finish (some .formatLength) s) :=
  (((((StopsAs.past h (require_of _ (by omega))).past hN.readBe64).past (require_of _ hS.ge)).past
    hC.readBe64).past (require_of _ hS)).of_bind.raises hne

end

/-! ### The loads -/

theorem Memory.read_writeBytes_zero (m : Memory) (bs : List Byte) (a : Nat) :
    (m.writeBytes 0 bs).read a = if a < bs.length then bs[a]? else m.read a := by
  simp [Memory.read_writeBytes]

/-- The last read of either load: a gap in the store's bytes faults, and bytes that are all there are installed. -/
theorem installs_bytes {i : Instr} {s : State} {nb : Nat} {c k : Word} {mode : Byte} {filter : Bool}
    (h : exec i s = conclude s (readBytes .img s.img 8 nb >>= fun bytes => pure (installStore c bytes k mode filter s))) :
    FaultsAtGap i s 8 nb ∧ ∀ B : List Byte, B.length = nb → Holds s.img 8 B → ∃ m : Memory,
      exec i s = .next (finish none { s with bitCount := c, bitmem := m, hashCount := k, compressMode := mode,
                                             bsValid := true, engValid := filter }) ∧
      ∀ a, m.read a = if a < nb then B[a]? else s.bitmem.read a := by
  refine ⟨(StopsAs.of_exec h).faults_readBytes, fun B hB hheld => ⟨s.bitmem.writeBytes 0 B, ?_, fun a => ?_⟩⟩
  · exact exec_past h (readBytes_ok_iff.2 ⟨hB, hheld⟩)
  · rw [Memory.read_writeBytes_zero, hB]

/-- Settles O56: each clause is the next check or read of the rule, behind those that have succeeded. -/
theorem bsLoadInstallsOrRejects : Obligations.BsLoadInstallsOrRejects := by
  refine ⟨decode_encode .bsLoad, fun s => ?_⟩
  -- What is left of the rule, behind each check and read: each fact is named after what comes next in it.
  have hexec : exec .bsLoad s = conclude s (require _ .imageTooLong >>= _) := rfl
  have hparse := fun hL : s.imgLen.toNat ≤ maxImageBytes s => exec_past hexec (require_of _ hL)
  have hseg := fun hL => StopsAs.of_exec (hparse hL)
  refine ⟨fun hlt => (StopsAs.of_exec hexec).raises hlt.not_ge, fun hL => (hseg hL).segment_short, fun hL h8 =>
    ⟨(hseg hL).segment_length_gap h8, fun N hN => ⟨(hseg hL).segment_overrun h8 hN, fun hle =>
      ⟨(hseg hL).segment_count_gap h8 hN hle, fun C hC => ?_⟩⟩⟩⟩
  have hcap := fun hS hlen => exec_past (hparse hL) (parseSegment_of_fields hN hC hS hlen)
  refine ⟨(hseg hL).segment_trailing hN hC, (hseg hL).segment_length hN hC,
    fun hS hlen hlt => (StopsAs.of_exec (hcap hS hlen)).raises hlt.not_ge, fun hS hlen hfits => ?_⟩
  have hbytes := exec_past (hcap hS hlen) (require_of _ hfits)
  exact installs_bytes hbytes

/-- Settles O57: the mode byte and hash_count come first, then the segment below them, by the same rule as for BS_LOAD. -/
theorem loadInstallsOrRejects : Obligations.LoadInstallsOrRejects := by
  refine ⟨decode_encode .load, fun s => ?_⟩
  -- Here too each fact is named after the check or read that comes next in what is left of the rule.
  have hexec : exec .load s = conclude s (require _ .imageTooLong >>= _) := rfl
  have hshort := fun hL : s.imgLen.toNat ≤ maxImageBytes s => exec_past hexec (require_of _ hL)
  refine ⟨fun hlt => (StopsAs.of_exec hexec).raises hlt.not_ge,
    fun hL hlt => (StopsAs.of_exec (hshort hL)).raises hlt.not_ge, fun hL h17 => ?_⟩
  have hread := exec_past (hshort hL) (require_of _ h17)
  refine ⟨(StopsAs.of_exec hread).faults_readByte, fun mode hmode => ?_⟩
  have hlegal := exec_past hread (readByte_ok_iff.2 hmode)
  refine ⟨fun hlt => (StopsAs.of_exec hlegal).raises hlt.not_ge, fun h1 => ?_⟩
  have hcount := exec_past hlegal (require_of _ h1)
  refine ⟨(StopsAs.of_exec hcount).faults_readBe64, fun H hH => ?_⟩
  have hparse := exec_past hcount hH.readBe64
  have hseg := StopsAs.of_exec hparse
  have h8 : 8 ≤ s.imgLen.toNat - 9 := by omega
  refine ⟨hseg.segment_length_gap h8, fun N hN => ⟨fun hlt => hseg.segment_overrun h8 hN (by omega), fun hle =>
    ⟨hseg.segment_count_gap h8 hN (by omega), fun C hC => ?_⟩⟩⟩
  have hseglen : s.imgLen.toNat = 25 + beNat N → s.imgLen.toNat - 9 = 16 + beNat N := by omega
  have hzero := fun hL hlen => exec_past hparse (parseSegment_of_fields hN hC (hseglen hL) hlen)
  have hcap := fun hL hlen (hc : beNat C ≠ 0) (hh : beNat H ≠ 0) =>
    exec_past (hzero hL hlen) (require_of _ ⟨hc, hh⟩)
  refine ⟨fun hlt => hseg.segment_trailing hN hC (by omega), fun hL => hseg.segment_length hN hC (hseglen hL),
    fun hL hlen h0 => (StopsAs.of_exec (hzero hL hlen)).raises fun ⟨hc, hh⟩ => h0.elim hc hh,
    fun hL hlen hc hh hlt => (StopsAs.of_exec (hcap hL hlen hc hh)).raises hlt.not_ge,
    fun hL hlen hc hh hfits => ?_⟩
  have hbytes := exec_past (hcap hL hlen hc hh) (require_of _ hfits)
  exact installs_bytes hbytes

/-- Settles O58: without an error a load commits its effect, whose premise is the image. -/
theorem loadsAcceptOnlyWholeImages : Obligations.LoadsAcceptOnlyWholeImages := by
  refine fun s t => ⟨fun h herr => ?_, fun h herr => ?_⟩
  · obtain ⟨e, -, rfl⟩ | ⟨s', ⟨c, B, -, hB, hfits, himage, rfl⟩, rfl⟩ := exec_next h
    · cases herr
    · exact ⟨B, himage, ⟨hB, holds_writeBytes _ 0 B⟩, hfits⟩
  · obtain ⟨e, -, rfl⟩ | ⟨s', ⟨c, k, mode, B, -, hB, hfits, hc, hk, hmode, himage, rfl⟩, rfl⟩ := exec_next h
    · cases herr
    · exact ⟨B, himage, ⟨hB, holds_writeBytes _ 0 B⟩, hfits, one_le_toNat hc, one_le_toNat hk, byte_le_one hmode⟩

/-! ### The saves -/

theorem StoreIs.length_lt {s : State} {B : List Byte} (h : StoreIs s B) : B.length < 2 ^ 61 + 1 :=
  h.1 ▸ nbytes_lt s.bitCount

/-- The image a save leaves is the one it put together, unless that is too long for the register IMG_LEN. -/
theorem imageIs_storeImage {I : List Byte} (s : State) (h : I.length < 2 ^ 64) : ImageIs (storeImage I s) I :=
  ⟨(Nat.mod_eq_of_lt h).symm, holds_writeBytes s.img 0 I⟩

theorem StoreIs.imageIs_segment {s : State} {B : List Byte} (h : StoreIs s B) :
    ImageIs (storeImage (segmentImage s.bitCount B) s) (segmentImage s.bitCount B) :=
  imageIs_storeImage s (by have := h.length_lt; rw [length_segmentImage]; omega)

theorem StoreIs.imageIs_filter {s : State} {B : List Byte} (h : StoreIs s B) :
    ImageIs (storeImage (filterImage s.bitCount B s.hashCount s.compressMode) s)
      (filterImage s.bitCount B s.hashCount s.compressMode) :=
  imageIs_storeImage s (by have := h.length_lt; rw [length_filterImage]; omega)

/-- A u64 field in a memory, byte by byte: the most significant byte first (00_scope.md R11). -/
theorem toNat_read_of_holds_be64 {m : Memory} {a : Nat} {v : Word} (h : Holds m a (be64Bytes v)) {t : Nat} (ht : t < 8) :
    (m.read (a + t)).map BitVec.toNat = some (v.toNat / 256 ^ (7 - t) % 256) := by
  rw [h t ht, be64Bytes_get v ht]

theorem toNat_read_of_holds_length {m : Memory} {B : List Byte} (h : Holds m 0 (be64Bytes (BitVec.ofNat 64 B.length)))
    (hB : B.length < 2 ^ 64) {t : Nat} (ht : t < 8) :
    (m.read t).map BitVec.toNat = some (B.length / 256 ^ (7 - t) % 256) := by
  have hbyte := toNat_read_of_holds_be64 h ht
  rwa [Nat.zero_add, BitVec.toNat_ofNat, Nat.mod_eq_of_lt hB] at hbyte

/-- Settles O54: the effect of BS_SAVE is the image, read back field by field. -/
theorem bsSaveWritesTheBitStoreImage : Obligations.BsSaveWritesTheBitStoreImage := by
  refine ⟨decode_encode .bsSave, fun s B => ⟨fun hv => ?_, fun hv hB => ?_⟩⟩
  · exact StopsAs.raises (.of_exec rfl) (p := s.bsValid = true) (by simp [hv])
  · obtain ⟨hlen, hN, hbytes, hC⟩ := imageIs_segment_iff.1 hB.imageIs_segment
    have hlt : B.length < 2 ^ 64 := hB.length_lt.trans (by decide)
    refine ⟨_, _, exec_of_effect (i := .bsSave) ⟨hv, B, hB, rfl⟩, hlen, fun t => toNat_read_of_holds_length hN hlt,
      hbytes, fun t => toNat_read_of_holds_be64 hC, fun a => ?_⟩
    rw [Memory.read_writeBytes_zero, length_segmentImage]

/-- Settles O55: the effect of SAVE is the image, read back field by field. -/
theorem saveWritesTheFilterImage : Obligations.SaveWritesTheFilterImage := by
  refine ⟨decode_encode .save, fun s B => ⟨fun hv => ?_, fun hv hB => ?_⟩⟩
  · exact StopsAs.raises (.of_exec rfl) (p := s.engValid = true) (by simp [hv])
  · obtain ⟨hlen, hN, hbytes, hC, hH, hmode⟩ := imageIs_filter_iff.1 hB.imageIs_filter
    have hlt : B.length < 2 ^ 64 := hB.length_lt.trans (by decide)
    refine ⟨_, _, exec_of_effect (i := .save) ⟨hv, B, hB, rfl⟩, hlen, fun t => toNat_read_of_holds_length hN hlt,
      hbytes, fun t => toNat_read_of_holds_be64 hC, fun t => toNat_read_of_holds_be64 hH, hmode, fun a => ?_⟩
    rw [Memory.read_writeBytes_zero, length_filterImage]

/-! ### The round trips -/

/-- Writing bytes that stand there already changes nothing. -/
theorem Memory.writeBytes_of_holds {m : Memory} {a : Nat} {bs : List Byte} (hm : m.wf) (h : Holds m a bs) :
    m.writeBytes a bs = m := by
  refine Memory.ext_read (Memory.wf_writeBytes a bs hm) hm fun x => ?_
  rw [Memory.read_writeBytes]
  split_ifs with hx
  · rw [← h (x - a) (by omega), Nat.add_sub_cancel' hx.1]
  · rfl

/-- The bytes of a store of R39 are some sequence. -/
theorem Rules39.exists_storeIs {s : State} (h : Rules39 s) (hv : s.bsValid = true) : ∃ B, StoreIs s B := by
  obtain ⟨B, -, hlen, hheld⟩ | ⟨o, -, ho, hgap, -⟩ := readBytes_cases .bitmem s.bitmem 0 (nbytes s.bitCount.toNat)
  · exact ⟨B, hlen, hheld⟩
  · have hbyte := h.bits_held hv o (by omega)
    rw [hgap] at hbyte
    cases hbyte

/-- Settles O59: BS_LOAD finds the image BS_SAVE wrote, and writes back the bytes that stand in BITMEM. -/
theorem bitStoreRoundTrip : Obligations.BitStoreRoundTrip := by
  intro s hinv hv
  obtain ⟨B, hB⟩ := hinv.rules.exists_storeIs hv
  have himage := hB.imageIs_segment
  have hlen : (segmentImage s.bitCount B).length ≤ maxImageBytes s :=
    image_fits hinv.rules (.inl hv) (by rw [length_segmentImage, hB.1]; omega)
  refine ⟨_, _, exec_of_effect (i := .bsSave) ⟨hv, B, hB, rfl⟩, rfl, exec_of_effect (i := .bsLoad)
    ⟨s.bitCount, B, himage.1 ▸ hlen, hB.1, hinv.rules.store_fits hv, himage, rfl⟩, rfl, rfl, rfl, fun b _ => ?_⟩
  exact congrArg (Memory.read · b) (Memory.writeBytes_of_holds hinv.kept.bitmem_form hB.2)

theorem installStore_self {s : State} {B : List Byte} (hm : s.bitmem.writeBytes 0 B = s.bitmem) (hbs : s.bsValid = true)
    (heng : s.engValid = true) : installStore s.bitCount B s.hashCount s.compressMode true s = s := by
  cases s; cases hbs; cases heng
  rw [installStore, hm]

/-- LOAD of the image of the current filter itself writes its completion (10_state.md R46) and nothing else. -/
theorem exec_load_own_image {s : State} {B : List Byte} (hr : Rules39 s) (hform : s.bitmem.wf) (hv : s.engValid = true)
    (hB : StoreIs s B) (himage : ImageIs s (filterImage s.bitCount B s.hashCount s.compressMode)) :
    exec .load s = .next (finish none s) := by
  have hbs : s.bsValid = true := hr.filter_has_store hv
  obtain ⟨hc, hk⟩ := hr.filter_counts hv
  have hlen : s.imgLen.toNat ≤ maxImageBytes s :=
    himage.1 ▸ image_fits hr (.inr hv) (by rw [length_filterImage, hB.1]; omega)
  have hc0 : s.bitCount ≠ 0 := fun h0 => by simp [h0] at hc
  have hk0 : s.hashCount ≠ 0 := fun h0 => by simp [h0] at hk
  exact exec_of_effect (i := .load) ⟨s.bitCount, s.hashCount, s.compressMode, B, hlen, hB.1, hr.store_fits hbs, hc0, hk0,
    byte_le_one_iff.2 hr.mode_legal, himage, (installStore_self (Memory.writeBytes_of_holds hform hB.2) hbs hv).symm⟩

/-- LOOKUP answers by the filter and the key alone. -/
theorem lookup_answers_alike {s u : State} {K : List Byte} (hr : Rules39 s) (hs : Hashable s K) (hu : Hashable u K)
    (hm : u.bitmem = s.bitmem) (hc : u.bitCount = s.bitCount) (hk : u.hashCount = s.hashCount) :
    ∃ v v', exec .lookup s = .next v ∧ v.err = false ∧ exec .lookup u = .next v' ∧ v'.err = false ∧
      v'.result = v.result := by
  obtain ⟨present, hpresent, -⟩ := hr.allSet_keyBits hs.1 K
  have hpresentU : allSet u.bitmem (keyBits u K) = .ok present := by rwa [keyBits, hm, hc, hk]
  exact ⟨_, _, exec_of_effect (i := .lookup) ⟨K, hs, present, hpresent, rfl⟩, rfl,
    exec_of_effect (i := .lookup) ⟨K, hu, present, hpresentU, rfl⟩, rfl, rfl⟩

theorem exec_save_of_store {s : State} {B : List Byte} (hv : s.engValid = true) (hB : StoreIs s B) :
    ∃ t, exec .save s = .next t ∧ t.err = false ∧
      ImageIs t (filterImage s.bitCount B s.hashCount s.compressMode) :=
  ⟨_, exec_of_effect (i := .save) ⟨hv, B, hB, rfl⟩, rfl, hB.imageIs_filter⟩

/-- Settles O60: SAVE leaves the filter as it is and LOAD finds its image, so LOOKUP meets the filter that stood before. -/
theorem filterRoundTrip : Obligations.FilterRoundTrip := by
  intro s hinv hv
  have hr := hinv.rules
  obtain ⟨B, hB⟩ := hr.exists_storeIs (hr.filter_has_store hv)
  obtain ⟨t, hsave, herr, himage⟩ := exec_save_of_store hv hB
  obtain ⟨hconfig, -, -, -, hbitmem⟩ := onlyTheListedCommandsWriteEachRegister .save s t hsave
  obtain ⟨-, heng, hmode, hc, hk⟩ := hconfig (by decide)
  have hm : t.bitmem = s.bitmem := hbitmem (by decide)
  obtain ⟨-, -, -, -, -, hkey, -⟩ := commandsNeverWriteHostOperands .save s t hsave
  have hvt : t.engValid = true := heng.trans hv
  have hload : exec .load t = .next (finish none t) :=
    exec_load_own_image (B := B) (hr.of_exec hsave) (by rw [hm]; exact hinv.kept.bitmem_form) hvt
      (by rwa [StoreIs, hc, hm]) (by rwa [hc, hk, hmode])
  refine ⟨t, _, hsave, herr, hload, rfl, hc, hk, hmode, hvt, fun b _ => congrArg (Memory.read · b) hm,
    fun kb len K ⟨_, hfits, hK⟩ => ?_⟩
  exact lookup_answers_alike { hr with } ⟨hv, hfits, hK⟩
    ⟨hvt, by rwa [maxKeyBytes, finish_maxKeyR, hkey], hK⟩ hm hc hk

end Sys2Proof.Machine
end

section
/-! PROOFS. 60_exceptions.md: what a raised error writes (R243), and a command issued again after one (R245, R246). -/

namespace Sys2Proof.Machine

/-! ### The frame of a raised error -/

theorem exec_next_of_err {i : Instr} {s t : State} (h : exec i s = .next t) (herr : t.err = true) :
    ∃ e, t = finish (some e) s := by
  rcases exec_next_writes h with ⟨e, rfl⟩ | ⟨s', -, rfl⟩
  · exact ⟨e, rfl⟩
  · simp at herr

theorem engineStep_next_of_err {s t : State} (h : engineStep s = .next t) (herr : t.err = true) :
    ∃ e, t = finish (some e) s := by
  obtain ⟨w, -, ⟨e, rfl⟩ | ⟨i, -, hexec⟩⟩ := engineStep_next_cases h
  · exact ⟨.illegal e, rfl⟩
  · exact exec_next_of_err hexec herr

/-- Settles O15: the completion with an error is written on the state as it stood, with ERR_LIMIT told by the code. -/
theorem failedCommandChangesNothingElse : Obligations.FailedCommandChangesNothingElse := by
  intro s t h herr
  have hraised : ∃ e, t = finish (some e) s := by
    rcases h with h | ⟨i, h⟩
    · exact engineStep_next_of_err h herr
    · exact exec_next_of_err h herr
  obtain ⟨e, rfl⟩ := hraised
  rw [← finish_errLimit_eq (some e) s]
  rfl

/-! ### Issued again

No command reads the report of the one before, and each writes the whole report anew: the command ends alike on `finish r s`
and on `s`. Its rule is followed check by check and read by read; both states answer each of them alike. -/

theorem conclude_finish_bind {α : Type} {r : Option CmdError} {s : State} {x : Except Stop α} {f g : α → Except Stop State}
    (h : ∀ a, conclude (finish r s) (f a) = conclude s (g a)) :
    conclude (finish r s) (x >>= f) = conclude s (x >>= g) := by
  rcases x with (_ | _) | a
  · rfl
  · rfl
  · exact h a

theorem conclude_finish_assignBit (v : Bool) (r : Option CmdError) (s : State) :
    conclude (finish r s) (assignBit v (finish r s)) = conclude s (assignBit v s) :=
  conclude_finish_bind (x := bitOperand s) fun _ => conclude_finish_bind fun _ => rfl

theorem conclude_finish_newFilter (mode : Byte) (r : Option CmdError) (s : State) :
    conclude (finish r s) (newFilter mode (finish r s)) = conclude s (newFilter mode s) :=
  conclude_finish_bind fun _ => conclude_finish_bind fun _ => rfl

theorem exec_finish (i : Instr) (r : Option CmdError) (s : State) : exec i (finish r s) = exec i s := by
  cases i with
  | bsNew => exact conclude_finish_bind fun _ => rfl
  | bitSet0 => exact conclude_finish_assignBit false r s
  | bitSet1 => exact conclude_finish_assignBit true r s
  | bitGet => exact conclude_finish_bind (x := bitOperand s) fun _ => conclude_finish_bind fun _ => rfl
  | hash => exact conclude_finish_bind (x := hashOperand s) fun _ => rfl
  | index => exact conclude_finish_bind (x := hashOperand s) fun _ => rfl
  | new0 => exact conclude_finish_newFilter 0 r s
  | new1 => exact conclude_finish_newFilter 1 r s
  | insert =>
    refine conclude_finish_bind (x := hashOperand s) fun K => conclude_finish_bind fun present => ?_
    cases present with
    | true => rfl
    | false => exact conclude_finish_bind fun _ => rfl
  | lookup => exact conclude_finish_bind (x := hashOperand s) fun _ => conclude_finish_bind fun _ => rfl
  | bsSave => exact conclude_finish_bind fun _ => conclude_finish_bind (x := encodeSegment s) fun _ => rfl
  | bsLoad =>
    exact conclude_finish_bind fun _ => conclude_finish_bind fun _ => conclude_finish_bind fun _ =>
      conclude_finish_bind fun _ => rfl
  | save => exact conclude_finish_bind fun _ => conclude_finish_bind (x := encodeSegment s) fun _ => rfl
  | load =>
    exact conclude_finish_bind fun _ => conclude_finish_bind fun _ => conclude_finish_bind fun _ =>
      conclude_finish_bind fun _ => conclude_finish_bind fun _ => conclude_finish_bind fun _ =>
        conclude_finish_bind fun _ => conclude_finish_bind fun _ => conclude_finish_bind fun _ => rfl

/-- Settles O16: the failure left the state it found, its report aside, and no command reads the report. -/
theorem failedCommandFailsAlikeAgain : Obligations.FailedCommandFailsAlikeAgain := by
  intro i s t h herr
  obtain ⟨e, ht⟩ := exec_next_of_err h herr
  calc exec i t = exec i (finish (some e) s) := by rw [← ht]
    _ = exec i s := exec_finish i _ s
    _ = .next t := h

end Sys2Proof.Machine
end

section
/-! PROOFS. 70_reset_and_hazards.md: what reset leaves (R270, R271), the reads that can fault (R272), the command that runs as it
would have run at its acceptance (R276), and the end of a host program (R281). -/

namespace Sys2Proof.Machine

/-! ### Faults -/

/-- Rule R39(h), for the current store and for the store of the current filter. -/
theorem Rules39.not_storeFault {s : State} {f : Fault} (h : Rules39 s) : ¬StoreFault s f := by
  rintro ⟨b, hb, hgap, -⟩
  obtain ⟨hstore, hlt⟩ : s.bsValid = true ∧ b < nbytes s.bitCount.toNat := by
    rcases hb with hb | ⟨hv, hb⟩
    · exact hb
    · exact ⟨h.filter_has_store hv, hb (h.one_le_bitCount hv)⟩
  have hheld := h.bits_held hstore b hlt
  rw [hgap] at hheld
  cases hheld

/-- Settles O12: of the three kinds of byte a command can fault on, R39 rules out those of the store. -/
theorem commandsFaultOnlyOnUnwrittenOperandBytes : Obligations.CommandsFaultOnlyOnUnwrittenOperandBytes := by
  intro i s f hr h
  rcases exec_fault_cases h with hkey | himg | hstore
  · exact .inl hkey
  · exact .inr himg
  · exact absurd hstore hr.not_storeFault

/-! ### A pending command and the host

While a command is pending, the host and the turns of the machine reach four fields of the state. No command reads them, and each
leaves them as they stand: its rule takes the same path with other values in them, and ends in the same state but for them. -/

/-- The state with the four fields as the host and the turns of the machine may leave them. -/
def withHostTrace (bw : Bool) (r : Option Response) (n : Nat) (l : List Turn) (s : State) : State :=
  { s with busyWrite := bw, response := r, draws := n, schedule := l }

/-- Where `o` is a completion, `o'` is the same completion but for the values of the four fields. -/
def CompletesAlike (bw : Bool) (r : Option Response) (n : Nat) (l : List Turn) (o o' : Host.Outcome State Fault Refusal) : Prop :=
  ∀ t, o = .next t → o' = .next (withHostTrace bw r n l t)

section
variable {bw : Bool} {r : Option Response} {n : Nat} {l : List Turn} {s : State}

theorem CompletesAlike.commit (s' : State) : CompletesAlike bw r n l (conclude s (pure s'))
    (conclude (withHostTrace bw r n l s) (pure (withHostTrace bw r n l s'))) := by
  intro t h
  cases h
  rfl

theorem CompletesAlike.bind {α : Type} {x : Except Stop α} {f g : α → Except Stop State}
    (h : ∀ a, CompletesAlike bw r n l (conclude s (f a)) (conclude (withHostTrace bw r n l s) (g a))) :
    CompletesAlike bw r n l (conclude s (x >>= f)) (conclude (withHostTrace bw r n l s) (x >>= g)) := by
  intro t ht
  rcases x with (e | fault) | a
  · cases ht; rfl
  · cases ht
  · exact h a t ht

theorem completesAlike_assignBit (v : Bool) : CompletesAlike bw r n l (conclude s (assignBit v s))
    (conclude (withHostTrace bw r n l s) (assignBit v (withHostTrace bw r n l s))) :=
  .bind (x := bitOperand s) fun _ => .bind fun _ => .commit _

theorem completesAlike_newFilter (mode : Byte) : CompletesAlike bw r n l (conclude s (newFilter mode s))
    (conclude (withHostTrace bw r n l s) (newFilter mode (withHostTrace bw r n l s))) :=
  .bind fun _ => .bind fun _ => .commit _

theorem exec_completesAlike (i : Instr) :
    CompletesAlike bw r n l (exec i s) (exec i (withHostTrace bw r n l s)) := by
  cases i with
  | bsNew => exact CompletesAlike.bind fun _ => .commit _
  | bitSet0 => exact completesAlike_assignBit false
  | bitSet1 => exact completesAlike_assignBit true
  | bitGet => exact CompletesAlike.bind (x := bitOperand s) fun _ => .bind fun _ => .commit _
  | hash => exact CompletesAlike.bind (x := hashOperand s) fun _ => .commit _
  | index => exact CompletesAlike.bind (x := hashOperand s) fun _ => .commit _
  | new0 => exact completesAlike_newFilter 0
  | new1 => exact completesAlike_newFilter 1
  | insert =>
    refine CompletesAlike.bind (x := hashOperand s) fun K => .bind fun present => ?_
    cases present with
    | true => exact .commit _
    | false => exact .bind fun _ => .commit _
  | lookup => exact CompletesAlike.bind (x := hashOperand s) fun _ => .bind fun _ => .commit _
  | bsSave => exact CompletesAlike.bind fun _ => .bind (x := encodeSegment s) fun _ => .commit _
  | bsLoad => exact CompletesAlike.bind fun _ => .bind fun _ => .bind fun _ => .bind fun _ => .commit _
  | save => exact CompletesAlike.bind fun _ => .bind (x := encodeSegment s) fun _ => .commit _
  | load =>
    exact CompletesAlike.bind fun _ => .bind fun _ => .bind fun _ => .bind fun _ => .bind fun _ => .bind fun _ =>
      .bind fun _ => .bind fun _ => .bind fun _ => .commit _

end

/-- Settles O31: every check, read and write of the command is the same on both states. -/
theorem commandRunsOnItsAcceptedOperands : Obligations.CommandRunsOnItsAcceptedOperands :=
  fun i _ t _ _ _ _ h => exec_completesAlike i t h

/-! ### The end of a host program -/

/-- Settles O9: with no transaction and no reset to come, the step is an idle turn of the engine, listed or not. -/
theorem endedProgramKeepsItsResult : Obligations.EndedProgramKeepsItsResult := by
  intro s ⟨hhost, hidle⟩ hreset
  cases hl : s.schedule with
  | nil =>
    refine ⟨[], ?_, ⟨fun _ => List.not_mem_nil, hidle⟩, List.not_mem_nil⟩
    rw [step_of_nil hl, engineTurn_of_idle hidle, ← hl]
  | cons x rest =>
    rw [hl] at hreset hhost
    cases x with
    | engine =>
      have hstep : step s = .next { s with schedule := rest } := (step_of_cons hl).trans (engineTurn_of_idle hidle)
      exact ⟨rest, hstep, ⟨fun t ht => hhost t (List.mem_cons_of_mem _ ht), hidle⟩,
        fun h => hreset (List.mem_cons_of_mem _ h)⟩
    | host x => exact absurd List.mem_cons_self (hhost x)
    | reset => exact absurd List.mem_cons_self hreset

/-! ### Reset -/

theorem one_le_toNat_of_choice (c : Nat) : 1 ≤ (BitVec.ofNat 64 (c % (2 ^ 64 - 1) + 1)).toNat := by
  rw [BitVec.toNat_ofNat]
  omega

theorem params_reset : 1 ≤ maxBits State.reset ∧ 1 ≤ maxKeyBytes State.reset :=
  ⟨one_le_toNat_of_choice _, one_le_toNat_of_choice _⟩

theorem statusWord_eq_zero {s : State} (hbusy : s.busy = false) (hdone : s.done = false) (herr : s.err = false)
    (hbw : s.busyWrite = false) (hcode : s.errCode = 0) (hdetail : s.errDetail = 0) : statusWord s = 0 := by
  simp [statusWord, flagAt, hbusy, hdone, herr, hbw, hcode, hdetail]

theorem configWord_eq_zero {s : State} (hbs : s.bsValid = false) (heng : s.engValid = false) (hmode : s.compressMode = 0) :
    configWord s = 0 := by
  simp [configWord, flagAt, hbs, heng, hmode]

/-- What both resets leave but the parameters; the schedule and the draw counter are the model's own. -/
theorem reset_form {s t : State} (h : t = State.reset ∨ t = resetEvent s) :
    ∃ mb mk l n, t = { State.resetWith mb mk with schedule := l, draws := n } := by
  rcases h with rfl | rfl
  · exact ⟨_, _, [], 0, rfl⟩
  · exact ⟨_, _, _, _, rfl⟩

/-- Settles O19: both resets leave the state of resetWith, whose fields are read off. -/
theorem resetLeavesTheStatedValues : Obligations.ResetLeavesTheStatedValues := by
  intro s t ht
  refine ⟨rfl, params_reset.1, params_reset.2, fun h => by rw [h]; exact ⟨rfl, rfl⟩, ?_, ?_⟩
  · exact congrArg (BitVec.ofNat 64) (maxImageBytes_eq t)
  · obtain ⟨mb, mk, l, n, rfl⟩ := reset_form ht
    exact ⟨rfl, statusWord_eq_zero rfl rfl rfl rfl rfl rfl, configWord_eq_zero rfl rfl rfl, rfl, fun _ => ⟨rfl, rfl, rfl⟩⟩

theorem wellKept_resetWith {mb mk : Word} (hmb : 1 ≤ mb.toNat) (hmk : 1 ≤ mk.toNat) :
    WellKept (State.resetWith mb mk) where
  params := ⟨hmb, hmk⟩
  key_form := .nil
  img_form := .nil
  bitmem_form := .nil
  key_inside := List.forall_mem_nil _
  img_inside := List.forall_mem_nil _
  bitmem_inside := List.forall_mem_nil _
  pending_is_cmd := fun _ h => by cases h
  busy_not_done := fun _ => rfl
  err_iff := by simp [State.resetWith]
  code_produced := List.mem_cons_self
  limit_zero := fun _ => rfl
  hashes_32 := ⟨Nat.two_pow_pos 32, Nat.two_pow_pos 32⟩

/-- Settles O20: R39 holds of every reset state, the rest wherever both parameters are at least 1. -/
theorem resetMeetsTheInvariant : Obligations.ResetMeetsTheInvariant :=
  ⟨rules39_resetWith _ _, wellKept_resetWith params_reset.1 params_reset.2⟩

end Sys2Proof.Machine
end
